-- ==== Sys2Proof/Word.lean ====
section
/-! DEFINITION. The word types of the ChannelCodec: the byte, the slot, the channel, the length and the command word, and the
two operand shapes made of them (00_scope.md R6, R8; 10_state.md R21, R24). -/

namespace Sys2Proof

/-- A byte of the wire buffer: 8 bits, unsigned, bit 0 least significant (R8, R24). -/
abbrev Byte := BitVec 8

/-- A slot of a ChannelSet as it is stored: 16 bits, unsigned (R21). -/
abbrev Slot := BitVec 16

/-- A channel as it travels on the wire: 11 bits, unsigned (R6, R44). -/
abbrev Channel := BitVec 11

/-- The byte count presented on `enc_len` or `dec_len`: `LEN_W` = 8 bits, unsigned (R25, R26, R62). -/
abbrev Len := BitVec 8

/-- A command word: 9 bits (R60). -/
abbrev CommandWord := BitVec 9

/-- A ChannelSet: exactly 18 slots (R21). -/
abbrev ChannelSet := Vector Slot 18

/-- The 22 bytes of a wire buffer that the codec reads or writes (R24, R25, R26). -/
abbrev WireImage := Vector Byte 22

/-- The 16 packed channels, masked to 11 bits each (R42). -/
abbrev Channels := Vector Channel 16

end Sys2Proof
end

