-- ==== Sys2Proof/Config.lean ====
section
/-! DEFINITION. The parameters of the ChannelCodec: those its document fixes (00_scope.md R6), the default slot that the spec
takes by decision (R7), and the one free value of the model. -/

namespace Sys2Proof.Config

/-- `N_CH`: channels packed into and parsed from the wire buffer (R6). -/
abbrev nCh : Nat := 16

/-- `W_CH`: bits per packed channel (R6). -/
abbrev wCh : Nat := 11

/-- `N_SLOT`: slots in a ChannelSet (R6). -/
abbrev nSlot : Nat := 18

/-- `W_SLOT`: storage bits per slot (R6). -/
abbrev wSlot : Nat := 16

/-- `N_BYTE`: bytes of a wire buffer that the codec reads or writes (R6). -/
abbrev nByte : Nat := 22

/-- `N_BIT`: bits of the bit stream (R6). -/
abbrev nBit : Nat := 176

/-- `MASK_CH`: the mask that reduces a slot to its 11 meaningful bits (R6). -/
abbrev maskCh : Slot := 0x7FF#16

/-- `LEN_W`: the width of a presented length (R7, 92 D3). -/
abbrev lenW : Nat := 8

/-- `DEFAULT_SLOT`: what DEC leaves in slots 16 and 17 (R7, R23, R106, 92 D6). The value is the spec's own decision; 93 U1 asks
that no claim rest on it, so every statement names this constant and the unit-level statements hold for every value of the
argument that stands for it. DESIGN CHOICE of the spec, unsafe: log entry 1. -/
def defaultSlot : Slot := 0x0000#16

/-- What `dec_wire[k]` carries when `k >= dec_len`: "may carry anything" (R26, 93 U6). A free value with no body: the first
argument is the harness's `idx`, the second is `k`. DESIGN CHOICE, safe: log entry 11. -/
opaque unsuppliedByte : Nat → Nat → Byte

end Sys2Proof.Config
end

