-- ==== Sys2Proof/Syntax.lean ====
section
/-! DEFINITION. The operations of the ChannelCodec as syntax: one constructor per row of spec/opcode_table.json
(00_scope.md R1; 30_encoding.md R60 to R65). -/

namespace Sys2Proof

/-- One operation: a unit and the length presented to it. The ChannelSet and the WireBuffer are no operands of the word: each
unit has exactly one of each (R63). -/
inductive Instr where
  /-- `ENC len`: pack the low 11 bits of slots 0 to 15 into bytes 0 to 21 (R80). -/
  | enc (len : Len)
  /-- `DEC len`: unpack bytes 0 to 21 into slots 0 to 15 and set slots 16 and 17 to the default (R100). -/
  | dec (len : Len)
deriving DecidableEq, Repr

/-- The one immediate of an operation (R62). -/
def Instr.len : Instr → Len
  | .enc len => len
  | .dec len => len

/-- The unit select: `OP_ENC` = 0, `OP_DEC` = 1 (R7, R60, R61). -/
def Instr.op : Instr → BitVec 1
  | .enc _ => 0#1
  | .dec _ => 1#1

@[simp] theorem Instr.len_enc (len : Len) : (Instr.enc len).len = len := rfl
@[simp] theorem Instr.len_dec (len : Len) : (Instr.dec len).len = len := rfl
@[simp] theorem Instr.op_enc (len : Len) : (Instr.enc len).op = 0#1 := rfl
@[simp] theorem Instr.op_dec (len : Len) : (Instr.dec len).op = 1#1 := rfl

end Sys2Proof
end

