-- ==== Sys2Proof/WellFormed.lean ====
section
/-! DEFINITION. When an operation is well formed: against a buffer of `bufLen` bytes the presented length must not exceed it
(10_state.md R30; 30_encoding.md R62; 93 U5). Nothing else about an operation can be ill formed: every value of `op` and of
`len` is defined (R66). -/

namespace Sys2Proof

/-- "A command with length field `len` is well formed in a harness with buffer length `L` only when `len <= L`" (R30). -/
def Instr.fits (bufLen : Nat) (i : Instr) : Bool := decide (i.len.toNat ≤ bufLen)

@[simp] theorem Instr.fits_iff (bufLen : Nat) (i : Instr) : i.fits bufLen = true ↔ i.len.toNat ≤ bufLen := by
  simp [Instr.fits]

end Sys2Proof
end

