-- ==== Sys2Proof/Decode.lean ====
section
/-! DEFINITION. Reading and writing command words (30_encoding.md R60 to R67): the decoder of a 9-bit word, the decoder of a
number of any size, the opcode map as rows of match and mask, and the encoder. -/

namespace Sys2Proof

/-- The field `len`, bits 8:1 of a command word (R60). -/
def lenField (w : CommandWord) : Len := w.extractLsb' 1 8

/-- The field `op`, bit 0 of a command word (R60). -/
def opField (w : CommandWord) : BitVec 1 := w.extractLsb' 0 1

/-- Reads a command word. `op` selects the unit and nothing else (R61); each of the 512 words is one of the two (R65, R66). -/
def decodeCommand (w : CommandWord) : Instr :=
  if opField w = 0#1 then .enc (lenField w) else .dec (lenField w)

/-- Why a number is no command word. -/
inductive DecodeReject where
  /-- The number has a bit set above bit 8. A command word is 9 bits, `0 <= cmd <= 511` (R60, R67). Raised by `decode` only;
  safe: such a number names no operation. Log entry 9. -/
  | widerThanCommandWord
deriving DecidableEq, Repr

/-- Reads a number of any size as a command word, or rejects it by name (R60, R67). -/
def decode (w : Nat) : Except DecodeReject Instr :=
  if w < 512 then .ok (decodeCommand (BitVec.ofNat 9 w)) else .error .widerThanCommandWord

/-- The command word of an operation, `{len, op}`: as a number `len * 2 + op` (R60). -/
def encode (i : Instr) : CommandWord := i.len ++ i.op

/-- One row of the opcode map of R65: a word is the row's operation when `w & mask = bits`. -/
structure OpcodeRow where
  mnemonic : String
  bits : CommandWord
  mask : CommandWord
deriving DecidableEq, Repr

/-- The whole opcode map (R65; spec/opcode_table.json). -/
def opcodeTable : List OpcodeRow :=
  [{ mnemonic := "ENC", bits := 0x000#9, mask := 0x001#9 },
   { mnemonic := "DEC", bits := 0x001#9, mask := 0x001#9 }]

/-- Whether a word is the row's operation (R65). -/
def OpcodeRow.accepts (r : OpcodeRow) (w : CommandWord) : Bool := decide (w &&& r.mask = r.bits)

/-- The mnemonic of an operation (R65, R68). -/
def Instr.mnemonic : Instr → String
  | .enc _ => "ENC"
  | .dec _ => "DEC"

/-- What the decoder reads from an instruction whose bits are `w`, `nbits` bits of it given by the table and the rest 0. A
command word is stored nowhere by this hardware (R27, R60), so there is no byte order to lay it out in: log entry 9. -/
def decodeTableWord (nbits w : Nat) : Option Instr :=
  match decode (w % 2 ^ nbits) with
  | .ok i => some i
  | .error _ => none

end Sys2Proof
end

