-- ==== Sys2Proof/Machine/State.lean ====
section
/-! DEFINITION. The state of the machine. The block owns none (10_state.md R20); what a model carries from step to step is the
reference harness of R30: the caller's ChannelSet `CS`, its WireBuffer `WB` of `L` bytes, the status codes `RES`, the index
`idx`, and the list of commands. Log entry 2. -/

namespace Sys2Proof.Machine

/-- The result status of an operation (30_encoding.md R64). Three values: code 3 is never produced (R66, 93 U8). -/
inductive Status where
  /-- `ST_OK`: the operation succeeded. -/
  | ok
  /-- `ST_TOO_SMALL`: ENC's `BufferTooSmall`. -/
  | tooSmall
  /-- `ST_TOO_SHORT`: DEC's `BufferTooShort`. -/
  | tooShort
deriving DecidableEq, Repr

/-- Memory as pairs of a byte index and a byte, indexes strictly rising. An index that is not listed has no value (log entry 5),
so no listed entry can equal what an unlisted index reads as. -/
abbrev Memory := List Host.Cell

/-- The canonical form: indexes strictly rising. -/
def Memory.wf : Memory → Bool
  | [] => true
  | [_] => true
  | c :: d :: m => decide (c.1 < d.1) && Memory.wf (d :: m)

/-- The caller's buffer: its length `L` and its bytes, by index from the start of the buffer (20_memory.md R50). -/
structure WireBuffer where
  /-- `L`, the number of bytes (R24). -/
  len : Nat
  /-- The bytes that have a value. -/
  mem : Memory
deriving DecidableEq, Repr

/-- The harness (R30). Every field is plain data. -/
structure State where
  /-- `CS`: 18 slots of 16 bits. -/
  cs : ChannelSet
  /-- `WB`, with its length `L`. -/
  wb : WireBuffer
  /-- `RES`: one status per operation done, oldest first. -/
  res : List Status
  /-- `idx`: the index of the next command. -/
  idx : Nat
  /-- The program: a finite list of command words (R30, R60). -/
  prog : List CommandWord
deriving DecidableEq, Repr

/-- Why the model stops with a fault. The two errors of the hardware are results and stand in `Status`, not here (R147). -/
inductive Fault where
  /-- DEC needs a byte of the buffer to which neither the launch nor an operation gave a value. Raised by
  `WireBuffer.readByte` and `WireBuffer.readImage`. Safe: R164 says every byte must be given a value at launch, so no run of
  the spec reaches it. Log entry 5. -/
  | byteWithoutValue
  /-- An access at an index that the buffer does not have, at or above `L` (R50). Raised by `WireBuffer.readByte`,
  `WireBuffer.readImage` and `WireBuffer.commitImage`. Safe: the guard `22 <= len <= L` stands before every access of an
  instruction, so no instruction reaches it. Log entry 17. -/
  | outsideBuffer
deriving DecidableEq, Repr

/-- Why the model gives no meaning. -/
inductive Refusal where
  /-- The instruction has no meaning yet. No arm of `exec` answers it in this model. Safe. -/
  | notModelled (mnemonic : String)
  /-- A command with `len > L`, or a program that holds one: "the harness refuses a program that holds any other command"
  (R30, R163, 93 U5). Raised by both instructions, by `fetch` and by `launch`. Safe. Log entry 7. -/
  | lenBeyondBuffer
  /-- There is no command at `idx`: "The run ends when `idx` equals the length of the command list" (R30, R164). Raised by
  `fetch`. Safe. Log entry 8. -/
  | runEnded
  /-- Two activations of one moment share an operand that one of them writes (R52, 93 U3). Raised by `together`. Safe.
  Log entry 12. -/
  | overlappingUse
  /-- An activation names a ChannelSet or a buffer that the bench does not have. Raised by `activate`. Safe. Log entry 12. -/
  | noSuchOperand
deriving DecidableEq, Repr

/-- The machine before any launch. `RES` and `idx` are as R33 gives them. `CS` and `WB` are "unspecified by the block" there:
18 zero slots (log entry 3), and no buffer, `L` = 0 with nothing listed (log entry 4). No program is launched (log entry 6). -/
def State.reset : State :=
  { cs := Vector.replicate 18 0x0000#16
    wb := { len := 0, mem := [] }
    res := []
    idx := 0
    prog := [] }

end Sys2Proof.Machine
end

