-- ==== Sys2Proof/Machine/Operands.lean ====
section
/-! DEFINITION. The two operands and the bit stream that joins them (20_memory.md R40 to R44): masking a slot, placing lanes and
bytes in the 176-bit stream, cutting the stream into bytes and into channels, and the two whole maps built from these, the image
of a ChannelSet (40_encode.md R83) and the ChannelSet of an image (41_decode.md R102, R103, R106). Shifts and masks of the
stream are on unbounded unsigned integers, as R8 and R127 say. -/

namespace Sys2Proof.Machine

/-- The slot that holds packed channel `i`: slot `i` itself (R21). -/
def packedSlot (i : Fin 16) : Fin 18 := i.castLE (by decide)

/-- `m_i`: a slot reduced to its low 11 bits by an explicit mask (R82, C8, 92 D26). -/
def maskSlot (v : Slot) : Channel := (v &&& 0x7FF#16).setWidth 11

/-- The 16 masked channels that ENC reads of a ChannelSet; slots 16 and 17 and bits 15:11 are not looked at (R22, R82). -/
def channelsOfSet (cs : ChannelSet) : Channels := Vector.ofFn fun i => maskSlot cs[packedSlot i]

/-- The stream as a number, seen as 16 lanes: `A = sum over i of m_i << (11*i)` (R42, R80). -/
def streamOfChannels (ch : Channels) : Nat := ∑ i : Fin 16, ch[i].toNat <<< (11 * i.val)

/-- The stream as a number, seen as 22 bytes: `A = sum over k of WB[k] << (8*k)` (R41, R100). -/
def streamOfImage (img : WireImage) : Nat := ∑ k : Fin 22, img[k].toNat <<< (8 * k.val)

/-- Byte `k` of a stream: `(A >> (8*k)) & 0xFF` (R80, R83). -/
def byteOfStream (a : Nat) (k : Fin 22) : Byte := BitVec.ofNat 8 ((a >>> (8 * k.val)) &&& 0xFF)

/-- Channel `i` of a stream: `(A >> (11*i)) & 0x7FF` (R100, R102). -/
def channelOfStream (a : Nat) (i : Fin 16) : Channel := BitVec.ofNat 11 ((a >>> (11 * i.val)) &&& 0x7FF)

/-- The 22 bytes of 16 channels (R83). -/
def packChannels (ch : Channels) : WireImage := Vector.ofFn fun k => byteOfStream (streamOfChannels ch) k

/-- The 16 channels of 22 bytes (R102). -/
def unpackImage (img : WireImage) : Channels := Vector.ofFn fun i => channelOfStream (streamOfImage img) i

/-- A ChannelSet whose packed slots are the channels zero extended to 16 bits (R103) and whose slots 16 and 17 are `d`, the
`DEFAULT_SLOT` (R106). -/
def widenChannels (d : Slot) (ch : Channels) : ChannelSet :=
  Vector.ofFn fun i => if h : i.val < 16 then (ch[i.val]).setWidth 16 else d

/-- `enc(c)`: the packed image of a ChannelSet (R83; 42_codec_laws.md). -/
def imageOfSet (cs : ChannelSet) : WireImage := packChannels (channelsOfSet cs)

/-- `dec(b)`: the ChannelSet of an image, `d` standing for `DEFAULT_SLOT` (R102, R103, R106; 42_codec_laws.md). -/
def setOfImage (d : Slot) (img : WireImage) : ChannelSet := widenChannels d (unpackImage img)

/-- `S[j]` as the 22 bytes hold it: bit `j mod 8` of byte `j div 8` (R41). -/
def imageBit (img : WireImage) (j : Fin 176) : Bool := (img[j.val / 8]).getLsbD (j.val % 8)

/-- `S[j]` as the 16 channels hold it: bit `j mod 11` of channel `j div 11` (R42). -/
def channelBit (ch : Channels) (j : Fin 176) : Bool := (ch[j.val / 11]).getLsbD (j.val % 11)

end Sys2Proof.Machine
end

