-- ==== Sys2Proof/Machine/Flags.lean ====
section
/-! DEFINITION. The block has no flag (10_state.md R28). The only status is the result of the operation just done: the length
guard that decides it (40_encode.md R81, 41_decode.md R101), the two errors (60_exceptions.md R140, R141) and their codes
(30_encoding.md R64). -/

namespace Sys2Proof.Machine

/-- The guard of both operations: at least 22 bytes, compared as unsigned numbers (R81, R101, R125, R127). -/
def lenOk (len : Len) : Bool := decide (22 ≤ len.toNat)

/-- The two errors of the hardware, "exactly two error kinds" (R142); they carry nothing beside their name (R140, R141). -/
inductive CodecError where
  /-- ENC only: "destination buffer shorter than 22 bytes" (R140). -/
  | bufferTooSmall
  /-- DEC only: "source buffer shorter than 22 bytes" (R141). -/
  | bufferTooShort
deriving DecidableEq, Repr

/-- The status of an error (R64). -/
def CodecError.status : CodecError → Status
  | .bufferTooSmall => .tooSmall
  | .bufferTooShort => .tooShort

/-- The 2-bit code of a status (R7, R64, 92 D4). -/
def Status.code : Status → BitVec 2
  | .ok => 0#2
  | .tooSmall => 1#2
  | .tooShort => 2#2

/-- The error an operation ends in when its guard fails (R140, R141, R142). -/
def errorOf : Instr → CodecError
  | .enc _ => .bufferTooSmall
  | .dec _ => .bufferTooShort

/-- The status of an operation: a function of its unit and its length alone (R81, R101, R125). -/
def statusOf (i : Instr) : Status := if lenOk i.len then .ok else (errorOf i).status

/-- ENC as R147 types it: a length and a ChannelSet to an error or 22 bytes. The guard comes first and does not look at the
ChannelSet (R80, R81); an error has no payload (R35). -/
def encOp (cs : ChannelSet) (len : Len) : Except CodecError WireImage :=
  if lenOk len then .ok (imageOfSet cs) else .error .bufferTooSmall

/-- DEC as R147 types it: a length and bytes to an error or a ChannelSet, `d` standing for `DEFAULT_SLOT`. The guard comes first
and does not look at the bytes (R100, R101); an error has no payload (R35). -/
def decOp (d : Slot) (img : WireImage) (len : Len) : Except CodecError ChannelSet :=
  if lenOk len then .ok (setOfImage d img) else .error .bufferTooShort

end Sys2Proof.Machine
end

