-- ==== Sys2Proof/Machine/Ops.lean ====
section
/-! DEFINITION. The named operations over the buffer and the harness: reading and writing one byte, reading and committing the
22 bytes together (20_memory.md R46 to R48), what DEC's ports carry (10_state.md R26), ending an operation with success or with
an error (60_exceptions.md R144), and fetching the next command (10_state.md R27, R30). -/

namespace Sys2Proof.Machine

/-- The byte listed at an index, if it has a value. -/
def Memory.read : Memory → Nat → Option Byte
  | [], _ => none
  | c :: m, a => if a = c.1 then some c.2 else Memory.read m a

/-- Gives the byte at an index a value, keeping the indexes rising. -/
def Memory.write : Memory → Nat → Byte → Memory
  | [], a, v => [(a, v)]
  | c :: m, a, v =>
    if a < c.1 then (a, v) :: c :: m
    else if a = c.1 then (a, v) :: m
    else c :: Memory.write m a v

/-- Writes the bytes of a list at consecutive indexes from `a` on. -/
def Memory.writeFrom (m : Memory) (a : Nat) : List Byte → Memory
  | [] => m
  | v :: vs => Memory.writeFrom (m.write a v) (a + 1) vs

/-- `MemRead(k, 1)`: one byte of the buffer (R8, R48). An index at or above `L` does not exist (R50). -/
def WireBuffer.readByte (wb : WireBuffer) (a : Nat) : Except Fault Byte :=
  if a < wb.len then
    match wb.mem.read a with
    | some v => .ok v
    | none => .error .byteWithoutValue
  else .error .outsideBuffer

/-- Bytes 0 to 21 of the buffer, all together (R47, R48). -/
def WireBuffer.readImage (wb : WireBuffer) : Except Fault WireImage :=
  if wb.len < 22 then .error .outsideBuffer
  else if h : ∀ k : Fin 22, (wb.mem.read k.val).isSome then
    .ok (Vector.ofFn fun k => (wb.mem.read k.val).get (h k))
  else .error .byteWithoutValue

/-- The host's commit of `enc_wire`: bytes 0 to 21 together and no other byte (R25, R46, R48, R163). -/
def WireBuffer.commitImage (wb : WireBuffer) (img : WireImage) : Except Fault WireBuffer :=
  if wb.len < 22 then .error .outsideBuffer
  else .ok { wb with mem := wb.mem.writeFrom 0 img.toList }

/-- What `dec_wire` carries when the host offers `len` bytes of the buffer. With 22 or more offered, bytes 0 to 21 of the
buffer. With fewer, byte `k` of the buffer for `k < len`, and anything for the rest (R26, 93 U6); a byte the launch gave no value
is also anything there, since the operation fails without looking at it (R101). `idx` numbers the operation. Log entry 11. -/
def WireBuffer.decPort (wb : WireBuffer) (idx : Nat) (len : Len) : Except Fault WireImage :=
  if lenOk len then wb.readImage
  else .ok (Vector.ofFn fun k =>
    if k.val < len.toNat then (wb.mem.read k.val).getD (Config.unsuppliedByte idx k.val)
    else Config.unsuppliedByte idx k.val)

/-- The end of an operation in the harness: its status is appended to `RES` and `idx` moves on by one, "as after a success"
for an error (R30, R144). -/
def State.finish (s : State) (st : Status) : State := { s with res := s.res ++ [st], idx := s.idx + 1 }

/-- TAKING AN ERROR, the analogue of trap entry (R144): the status is reported, no operand is written, nothing is saved, no mode
changes and control goes nowhere but to the next command. There is no return from it, because nothing was entered (R145), and it
leaves no mark but its code in `RES` (R146). -/
def State.takeError (s : State) (e : CodecError) : State := s.finish e.status

/-- A successful ENC in the harness: the buffer is the committed one, `CS` is unchanged (R30, R87). -/
def State.finishEnc (s : State) (wb : WireBuffer) : State := { s with wb := wb }.finish .ok

/-- A successful DEC in the harness: all 18 slots are replaced, `WB` is unchanged (R30, R108). -/
def State.finishDec (s : State) (cs : ChannelSet) : State := { s with cs := cs }.finish .ok

/-- Every command of a program fits a buffer of `bufLen` bytes (R30). -/
def programFits (bufLen : Nat) (prog : List CommandWord) : Bool :=
  prog.all fun w => (decodeCommand w).fits bufLen

/-- The next command. A program that holds a command with `len > L` is refused as a whole (R30, 93 U5; log entry 7); past the
last command the run has ended (R30, R164; log entry 8). -/
def fetch (s : State) : Except Refusal CommandWord :=
  if programFits s.wb.len s.prog then
    match s.prog[s.idx]? with
    | some w => .ok w
    | none => .error .runEnded
  else .error .lenBeyondBuffer

end Sys2Proof.Machine
end

