-- ==== Sys2Proof/Machine/Decoder.lean ====
section
/-! DEFINITION. The meaning of DEC in the harness (41_decode.md R100 to R109; 10_state.md R30). -/

namespace Sys2Proof.Machine

/-- `DEC len` (R100). A length the buffer does not have is refused (R30, 93 U5). The error is a result: `CS` keeps its value and
the harness goes on (R101, R144, R147). On success all 18 slots are replaced and `WB` is unchanged (R108). -/
def execDec (len : Len) (s : State) : Host.Outcome State Fault Refusal :=
  if (Instr.dec len).fits s.wb.len then
    match s.wb.decPort s.idx len with
    | .error f => .fault f
    | .ok img =>
      match decOp Config.defaultSlot img len with
      | .error e => .next (s.takeError e)
      | .ok cs => .next (s.finishDec cs)
  else .refused .lenBeyondBuffer

end Sys2Proof.Machine
end

