-- ==== Sys2Proof/Machine/Encoder.lean ====
section
/-! DEFINITION. The meaning of ENC in the harness (40_encode.md R80 to R88; 10_state.md R30). -/

namespace Sys2Proof.Machine

/-- `ENC len` (R80). A length the buffer does not have is refused (R30, 93 U5). The error is a result: nothing is written and the
harness goes on (R81, R144, R147). On success the 22 bytes are committed together and `CS` is unchanged (R87). -/
def execEnc (len : Len) (s : State) : Host.Outcome State Fault Refusal :=
  if (Instr.enc len).fits s.wb.len then
    match encOp s.cs len with
    | .error e => .next (s.takeError e)
    | .ok img =>
      match s.wb.commitImage img with
      | .error f => .fault f
      | .ok wb => .next (s.finishEnc wb)
  else .refused .lenBeyondBuffer

end Sys2Proof.Machine
end

