-- ==== Sys2Proof/Machine/Launch.lean ====
section
/-! DEFINITION. How a run starts and ends (10_state.md R30; 70_reset_and_hazards.md R164): the launch, the end of a run, and the
parts of a launch that Step.lean uses to place one command. -/

namespace Sys2Proof.Machine

/-- A buffer that holds exactly the given bytes, index 0 first. -/
def WireBuffer.ofBytes (bytes : List Byte) : WireBuffer :=
  { len := bytes.length, mem := (List.range bytes.length).zip bytes }

/-- "A launch fixes `L`, every slot of `CS`, every byte of `WB`, `RES = []`, `idx = 0` and the command list" (R164); a program
that holds a command with `len > L` is refused (R30). -/
def State.launch (cs : ChannelSet) (bytes : List Byte) (prog : List CommandWord) : Except Refusal State :=
  if programFits bytes.length prog then
    .ok { cs := cs, wb := WireBuffer.ofBytes bytes, res := [], idx := 0, prog := prog }
  else .error .lenBeyondBuffer

/-- "The run ends when `idx` equals the length of the command list" (R30, R164). -/
def State.ended (s : State) : Bool := decide (s.idx = s.prog.length)

/-- The longest length any command of a program presents. -/
def programNeeds : List CommandWord → Nat
  | [] => 0
  | w :: ws => max (decodeCommand w).len.toNat (programNeeds ws)

/-- The program with the command at index `n` replaced by `w`; an index beyond the end is reached by commands `ENC 0`, which fit
every buffer. Log entry 6. -/
def placeCommand (w : CommandWord) : Nat → List CommandWord → List CommandWord
  | 0, [] => [w]
  | 0, _ :: ws => w :: ws
  | n + 1, [] => 0x000#9 :: placeCommand w n []
  | n + 1, v :: ws => v :: placeCommand w n ws

/-- A buffer of at least `n` bytes in which every byte has a value: a byte that has one keeps it, a byte that has none is given
0x00. It stands for the host's launch, which must give every byte a value (R164). Log entry 6. -/
def WireBuffer.provide (wb : WireBuffer) (n : Nat) : WireBuffer :=
  { len := max wb.len n
    mem := (List.range (max wb.len n)).map fun a => (a, (wb.mem.read a).getD 0x00#8) }

end Sys2Proof.Machine
end

