-- ==== Sys2Proof/Machine/Step.lean ====
section
/-! DEFINITION. One step of the harness: fetch the command at `idx`, decode it, do it (10_state.md R30). -/

namespace Sys2Proof.Machine

/-- One step: the operation at `idx`, whole and at once (R30, R48, R51). -/
def step (s : State) : Host.Outcome State Fault Refusal :=
  match fetch s with
  | .error r => .refused r
  | .ok w => exec (decodeCommand w) s

/-- `s` launched with the command `w` as its next one: the command stands at `idx`, and the buffer has the bytes that the
program presents, each with a value, as every launch must give (R30, R164). A number that is no command word is placed nowhere
(R60). Log entry 6. -/
def State.withFetchWord (s : State) (nbits w : Nat) : State :=
  if w % 2 ^ nbits < 512 then
    { s with
      prog := placeCommand (BitVec.ofNat 9 (w % 2 ^ nbits)) s.idx s.prog
      wb := s.wb.provide (programNeeds (placeCommand (BitVec.ofNat 9 (w % 2 ^ nbits)) s.idx s.prog)) }
  else s

end Sys2Proof.Machine
end

