-- ==== Sys2Proof/Machine/Assembler.lean ====
section
/-! DEFINITION. The textual form of an operation (30_encoding.md R68, R69): `ENC <len>` and `DEC <len>`, one a line, `<len>`
decimal or hexadecimal with the prefix `0x`, and `;` starting a comment. Text is a list of characters. What R68 leaves open
(blank space, blank lines, capitals of a hexadecimal digit, leading zeros) is log entry 13. -/

namespace Sys2Proof.Machine

/-- Why a line is no operation. Raised by `assembleLine` only; safe. -/
inductive AsmError where
  /-- The first word is neither `ENC` nor `DEC`. -/
  | unknownMnemonic
  /-- The second word is no number from 0 to 255. -/
  | badLength
  /-- A line that is not blank has one word or more than two. -/
  | wrongShape
deriving DecidableEq, Repr

/-- A space, a tab or a carriage return between words. -/
def isBlank (c : Char) : Bool := c == ' ' || c == '\t' || c == '\r'

/-- The line without its comment: everything before the first `;` (R68). -/
def stripComment : List Char → List Char
  | [] => []
  | c :: cs => if c == ';' then [] else c :: stripComment cs

/-- The words of a line; the second argument is the word being read, last character first. -/
def wordsFrom : List Char → List Char → List (List Char)
  | [], [] => []
  | [], cur => [cur.reverse]
  | c :: cs, cur =>
    if isBlank c then
      match cur with
      | [] => wordsFrom cs []
      | _ => cur.reverse :: wordsFrom cs []
    else wordsFrom cs (c :: cur)

/-- The value of a decimal digit. -/
def decDigit (c : Char) : Option Nat :=
  if 48 ≤ c.toNat ∧ c.toNat ≤ 57 then some (c.toNat - 48) else none

/-- The value of a hexadecimal digit, in either case. -/
def hexDigit (c : Char) : Option Nat :=
  if 48 ≤ c.toNat ∧ c.toNat ≤ 57 then some (c.toNat - 48)
  else if 65 ≤ c.toNat ∧ c.toNat ≤ 70 then some (c.toNat - 55)
  else if 97 ≤ c.toNat ∧ c.toNat ≤ 102 then some (c.toNat - 87)
  else none

/-- A number in a base, most significant digit first, on top of the value read so far. -/
def digitsFrom (base : Nat) (digit : Char → Option Nat) : Nat → List Char → Option Nat
  | acc, [] => some acc
  | acc, c :: cs =>
    match digit c with
    | some d => digitsFrom base digit (acc * base + d) cs
    | none => none

/-- `<len>`: "a decimal number 0 to 255, or hexadecimal with the prefix `0x`" (R68). -/
def parseLen (cs : List Char) : Option Len :=
  match (match cs with
    | [] => none
    | ['0', 'x'] => none
    | '0' :: 'x' :: ds => digitsFrom 16 hexDigit 0 ds
    | ds => digitsFrom 10 decDigit 0 ds) with
  | some n => if n < 256 then some (BitVec.ofNat 8 n) else none
  | none => none

/-- One line: an operation, or nothing where the line is blank or only a comment (R68). -/
def assembleLine (line : List Char) : Except AsmError (Option Instr) :=
  match wordsFrom (stripComment line) [] with
  | [] => .ok none
  | [mn, num] =>
    if mn = ['E', 'N', 'C'] then
      match parseLen num with
      | some len => .ok (some (.enc len))
      | none => .error .badLength
    else if mn = ['D', 'E', 'C'] then
      match parseLen num with
      | some len => .ok (some (.dec len))
      | none => .error .badLength
    else .error .unknownMnemonic
  | _ => .error .wrongShape

/-- A text cut at its line ends; the second argument is the line being read, last character first. -/
def linesFrom : List Char → List Char → List (List Char)
  | [], cur => [cur.reverse]
  | c :: cs, cur => if c == '\n' then cur.reverse :: linesFrom cs [] else linesFrom cs (c :: cur)

/-- The operations of a list of lines, in order, or the first error. -/
def assembleLines : List (List Char) → Except AsmError (List CommandWord)
  | [] => .ok []
  | l :: ls =>
    match assembleLine l with
    | .error e => .error e
    | .ok none => assembleLines ls
    | .ok (some i) =>
      match assembleLines ls with
      | .ok ws => .ok (encode i :: ws)
      | .error e => .error e

/-- A program text, as the command words of its lines: "One operation per line" (R68). -/
def assemble (text : List Char) : Except AsmError (List CommandWord) := assembleLines (linesFrom text [])

/-- The text of an operation: its mnemonic, a space, and its length in decimal (R68). -/
def printInstr (i : Instr) : List Char :=
  (match i with
    | .enc _ => ['E', 'N', 'C', ' ']
    | .dec _ => ['D', 'E', 'C', ' ']) ++ Nat.toDigits 10 i.len.toNat

/-- A command word "written as three hexadecimal digits, for example `ENC 22` is `0x02C`" (R68). -/
def printWord (w : CommandWord) : List Char :=
  ['0', 'x', hexChar (w.toNat / 256), hexChar (w.toNat / 16), hexChar w.toNat]
where
  /-- The character of the low four bits of a number, capital letters as in R68's examples. -/
  hexChar (n : Nat) : Char := if n % 16 < 10 then Char.ofNat (48 + n % 16) else Char.ofNat (55 + n % 16)

end Sys2Proof.Machine
end

