-- ==== Sys2Proof/Machine/Concurrent.lean ====
section
/-! DEFINITION. Activations at the same moment (10_state.md R36; 20_memory.md R52; 60_exceptions.md R143, R155): a bench of
named operands, the ChannelSets and the buffers of any number of callers, on which units (of one copy of the block or of many)
and the host's own stores act together. Independent activities are done; activities that share an operand that one of them
writes are refused (93 U3). Log entries 12 and 18. -/

namespace Sys2Proof.Machine

/-- The operands of all callers. Two names are two objects: no buffer overlaps another. -/
structure Bench where
  sets : List ChannelSet
  bufs : List WireBuffer
deriving DecidableEq, Repr

/-- The name of an operand. -/
inductive OperandName where
  | set (n : Nat)
  | buf (n : Nat)
deriving DecidableEq, Repr

/-- What acts on operands at one moment: a unit, or the host storing into its own operands ("a host write to `CS` while ENC
reads it", R52). -/
inductive Activity where
  /-- One operation of a unit on a ChannelSet and a buffer. -/
  | operation (i : Instr) (set buf : Nat)
  /-- The host stores a whole ChannelSet. -/
  | hostSet (set : Nat) (cs : ChannelSet)
  /-- The host stores one byte of a buffer. -/
  | hostByte (buf : Nat) (a : Nat) (v : Byte)
deriving DecidableEq, Repr

/-- The operands an activity reads: ENC its ChannelSet (R80), DEC its buffer (R100). They are its operands whatever its length is:
R52 makes no exception for an operation that fails. -/
def Activity.reads : Activity → List OperandName
  | .operation (.enc _) set _ => [.set set]
  | .operation (.dec _) _ buf => [.buf buf]
  | .hostSet _ _ => []
  | .hostByte _ _ _ => []

/-- The operands an activity is given to write: ENC its buffer (R80), DEC its ChannelSet (R100), again whatever the length is. -/
def Activity.writes : Activity → List OperandName
  | .operation (.enc _) _ buf => [.buf buf]
  | .operation (.dec _) set _ => [.set set]
  | .hostSet set _ => [.set set]
  | .hostByte buf _ _ => [.buf buf]

/-- Some operand is written by one of the two and used by the other (R52). -/
def overlap (a b : Activity) : Bool :=
  (a.writes.any fun o => (b.reads ++ b.writes).contains o) ||
  (b.writes.any fun o => (a.reads ++ a.writes).contains o)

/-- One activity by itself: the bench after it and the status codes it reports. An operation is the harness's step on its own two
operands (R30). -/
def activate (a : Activity) (b : Bench) : Host.Outcome (Bench × List Status) Fault Refusal :=
  match a with
  | .operation i set buf =>
    match b.sets[set]?, b.bufs[buf]? with
    | some cs, some wb =>
      match exec i { cs := cs, wb := wb, res := [], idx := 0, prog := [] } with
      | .next t => .next ({ sets := b.sets.set set t.cs, bufs := b.bufs.set buf t.wb }, t.res)
      | .fault f => .fault f
      | .refused r => .refused r
    | _, _ => .refused .noSuchOperand
  | .hostSet set cs =>
    if set < b.sets.length then .next ({ b with sets := b.sets.set set cs }, []) else .refused .noSuchOperand
  | .hostByte buf a v =>
    match b.bufs[buf]? with
    | some wb =>
      if a < wb.len then .next ({ b with bufs := b.bufs.set buf { wb with mem := wb.mem.write a v } }, [])
      else .fault .outsideBuffer
    | none => .refused .noSuchOperand

/-- Activities one after another, each seeing what the one before left (R51), with the status codes of each. Where one of them
stops (`len > L`, a byte without a value, an operand or a byte that is not there), the whole list stops with the first such stop
in list order, and no other activity gets an outcome: DESIGN CHOICE, safe, log entry 18. -/
def inOrder : List Activity → Bench → Host.Outcome (Bench × List (List Status)) Fault Refusal
  | [], b => .next (b, [])
  | a :: as, b =>
    match activate a b with
    | .next (b', st) =>
      match inOrder as b' with
      | .next (b'', sts) => .next (b'', st :: sts)
      | .fault f => .fault f
      | .refused r => .refused r
    | .fault f => .fault f
    | .refused r => .refused r

/-- No two activities of the list overlap. -/
def independent : List Activity → Bool
  | [] => true
  | a :: as => (as.all fun b => !overlap a b) && independent as

/-- Activities at the same moment: independent ones are done, in any order (R36, R52, R155); overlapping ones have no meaning
and are refused (R52, 93 U3). Overlap is looked at before anything else, and a stop of one independent activity stops the moment as
`inOrder` says: DESIGN CHOICE, safe, log entry 18. -/
def together (as : List Activity) (b : Bench) : Host.Outcome (Bench × List (List Status)) Fault Refusal :=
  if independent as then inOrder as b else .refused .overlappingUse

end Sys2Proof.Machine
end

