-- ==== Sys2Proof/Machine/Forms.lean ====
section
/-! DEFINITION. The two other ways the spec writes each operation: the unrolled formulas (40_encode.md R84, 41_decode.md R104) and
the bit accumulator (R85, R105). ENC and DEC do not use these (00_scope.md R5); statements hold them against the closed forms of
Operands.lean, as 70_reset_and_hazards.md R172 asks. -/

namespace Sys2Proof.Machine

/-- The 22 byte formulas of R84 over the masked slots `m0` to `m15`. -/
def unrolledImage (ch : Channels) : WireImage :=
  let m0 : Nat := ch[0].toNat
  let m1 : Nat := ch[1].toNat
  let m2 : Nat := ch[2].toNat
  let m3 : Nat := ch[3].toNat
  let m4 : Nat := ch[4].toNat
  let m5 : Nat := ch[5].toNat
  let m6 : Nat := ch[6].toNat
  let m7 : Nat := ch[7].toNat
  let m8 : Nat := ch[8].toNat
  let m9 : Nat := ch[9].toNat
  let m10 : Nat := ch[10].toNat
  let m11 : Nat := ch[11].toNat
  let m12 : Nat := ch[12].toNat
  let m13 : Nat := ch[13].toNat
  let m14 : Nat := ch[14].toNat
  let m15 : Nat := ch[15].toNat
  #v[BitVec.ofNat 8 (m0 &&& 0xFF),
     BitVec.ofNat 8 (((m0 >>> 8) ||| (m1 <<< 3)) &&& 0xFF),
     BitVec.ofNat 8 (((m1 >>> 5) ||| (m2 <<< 6)) &&& 0xFF),
     BitVec.ofNat 8 ((m2 >>> 2) &&& 0xFF),
     BitVec.ofNat 8 (((m2 >>> 10) ||| (m3 <<< 1)) &&& 0xFF),
     BitVec.ofNat 8 (((m3 >>> 7) ||| (m4 <<< 4)) &&& 0xFF),
     BitVec.ofNat 8 (((m4 >>> 4) ||| (m5 <<< 7)) &&& 0xFF),
     BitVec.ofNat 8 ((m5 >>> 1) &&& 0xFF),
     BitVec.ofNat 8 (((m5 >>> 9) ||| (m6 <<< 2)) &&& 0xFF),
     BitVec.ofNat 8 (((m6 >>> 6) ||| (m7 <<< 5)) &&& 0xFF),
     BitVec.ofNat 8 ((m7 >>> 3) &&& 0xFF),
     BitVec.ofNat 8 (m8 &&& 0xFF),
     BitVec.ofNat 8 (((m8 >>> 8) ||| (m9 <<< 3)) &&& 0xFF),
     BitVec.ofNat 8 (((m9 >>> 5) ||| (m10 <<< 6)) &&& 0xFF),
     BitVec.ofNat 8 ((m10 >>> 2) &&& 0xFF),
     BitVec.ofNat 8 (((m10 >>> 10) ||| (m11 <<< 1)) &&& 0xFF),
     BitVec.ofNat 8 (((m11 >>> 7) ||| (m12 <<< 4)) &&& 0xFF),
     BitVec.ofNat 8 (((m12 >>> 4) ||| (m13 <<< 7)) &&& 0xFF),
     BitVec.ofNat 8 ((m13 >>> 1) &&& 0xFF),
     BitVec.ofNat 8 (((m13 >>> 9) ||| (m14 <<< 2)) &&& 0xFF),
     BitVec.ofNat 8 (((m14 >>> 6) ||| (m15 <<< 5)) &&& 0xFF),
     BitVec.ofNat 8 ((m15 >>> 3) &&& 0xFF)]

/-- The 16 channel formulas of R104 over the bytes `b0` to `b21`. -/
def unrolledChannels (img : WireImage) : Channels :=
  let b0 : Nat := img[0].toNat
  let b1 : Nat := img[1].toNat
  let b2 : Nat := img[2].toNat
  let b3 : Nat := img[3].toNat
  let b4 : Nat := img[4].toNat
  let b5 : Nat := img[5].toNat
  let b6 : Nat := img[6].toNat
  let b7 : Nat := img[7].toNat
  let b8 : Nat := img[8].toNat
  let b9 : Nat := img[9].toNat
  let b10 : Nat := img[10].toNat
  let b11 : Nat := img[11].toNat
  let b12 : Nat := img[12].toNat
  let b13 : Nat := img[13].toNat
  let b14 : Nat := img[14].toNat
  let b15 : Nat := img[15].toNat
  let b16 : Nat := img[16].toNat
  let b17 : Nat := img[17].toNat
  let b18 : Nat := img[18].toNat
  let b19 : Nat := img[19].toNat
  let b20 : Nat := img[20].toNat
  let b21 : Nat := img[21].toNat
  #v[BitVec.ofNat 11 ((b0 ||| (b1 <<< 8)) &&& 0x7FF),
     BitVec.ofNat 11 (((b1 >>> 3) ||| (b2 <<< 5)) &&& 0x7FF),
     BitVec.ofNat 11 (((b2 >>> 6) ||| (b3 <<< 2) ||| (b4 <<< 10)) &&& 0x7FF),
     BitVec.ofNat 11 (((b4 >>> 1) ||| (b5 <<< 7)) &&& 0x7FF),
     BitVec.ofNat 11 (((b5 >>> 4) ||| (b6 <<< 4)) &&& 0x7FF),
     BitVec.ofNat 11 (((b6 >>> 7) ||| (b7 <<< 1) ||| (b8 <<< 9)) &&& 0x7FF),
     BitVec.ofNat 11 (((b8 >>> 2) ||| (b9 <<< 6)) &&& 0x7FF),
     BitVec.ofNat 11 (((b9 >>> 5) ||| (b10 <<< 3)) &&& 0x7FF),
     BitVec.ofNat 11 ((b11 ||| (b12 <<< 8)) &&& 0x7FF),
     BitVec.ofNat 11 (((b12 >>> 3) ||| (b13 <<< 5)) &&& 0x7FF),
     BitVec.ofNat 11 (((b13 >>> 6) ||| (b14 <<< 2) ||| (b15 <<< 10)) &&& 0x7FF),
     BitVec.ofNat 11 (((b15 >>> 1) ||| (b16 <<< 7)) &&& 0x7FF),
     BitVec.ofNat 11 (((b16 >>> 4) ||| (b17 <<< 4)) &&& 0x7FF),
     BitVec.ofNat 11 (((b17 >>> 7) ||| (b18 <<< 1) ||| (b19 <<< 9)) &&& 0x7FF),
     BitVec.ofNat 11 (((b19 >>> 2) ||| (b20 <<< 6)) &&& 0x7FF),
     BitVec.ofNat 11 (((b20 >>> 5) ||| (b21 <<< 3)) &&& 0x7FF)]

/-- The bit accumulator inside one operation (R9, R32): the pending value, the count of valid bits in it, and the largest value
`pend` has held. -/
structure Accumulator where
  pend : Nat
  cnt : Nat
  peak : Nat
deriving DecidableEq, Repr

/-- Nothing pending, as both forms start. -/
def Accumulator.empty : Accumulator := { pend := 0, cnt := 0, peak := 0 }

/-- ORs a field of `width` bits in above the bits already pending (R85, R105). -/
def Accumulator.push (a : Accumulator) (field width : Nat) : Accumulator :=
  { pend := a.pend ||| (field <<< a.cnt)
    cnt := a.cnt + width
    peak := max a.peak (a.pend ||| (field <<< a.cnt)) }

/-- Drops the low `width` bits (R85, R105). -/
def Accumulator.drop (a : Accumulator) (width : Nat) : Accumulator :=
  { a with pend := a.pend >>> width, cnt := a.cnt - width }

/-- R85's inner loop: "emit 8-bit chunks whenever ≥8 bits are pending". The first argument bounds the turns; two are the most
R85 takes, since `cnt` is at most 18 there. -/
def emitBytes : Nat → Accumulator → Accumulator × List Byte
  | 0, a => (a, [])
  | fuel + 1, a =>
    if 8 ≤ a.cnt then
      ((emitBytes fuel (a.drop 8)).1, BitVec.ofNat 8 (a.pend &&& 0xFF) :: (emitBytes fuel (a.drop 8)).2)
    else (a, [])

/-- R85's outer loop, over the channels in order: the accumulator it ends with and the bytes it emits, first byte first. -/
def accumulateEnc : Accumulator → List Channel → Accumulator × List Byte
  | a, [] => (a, [])
  | a, c :: cs =>
    let e := emitBytes 3 (a.push c.toNat 11)
    ((accumulateEnc e.1 cs).1, e.2 ++ (accumulateEnc e.1 cs).2)

/-- R105's inner loop: takes bytes until 11 bits are pending. The first argument bounds the turns; two are the most R105 takes. -/
def takeBytes : Nat → Accumulator → List Byte → Accumulator × List Byte
  | fuel + 1, a, b :: bs =>
    if a.cnt < 11 then takeBytes fuel (a.push b.toNat 8) bs else (a, b :: bs)
  | _, a, bs => (a, bs)

/-- R105's outer loop for `n` channels: the accumulator and the bytes it leaves, and the channels it stores, first first. -/
def accumulateDec : Nat → Accumulator → List Byte → (Accumulator × List Byte) × List Channel
  | 0, a, bs => ((a, bs), [])
  | n + 1, a, bs =>
    let t := takeBytes 3 a bs
    let r := accumulateDec n (t.1.drop 11) t.2
    (r.1, BitVec.ofNat 11 (t.1.pend &&& 0x7FF) :: r.2)

end Sys2Proof.Machine
end

