-- ==== Sys2Proof/Machine/Layout.lean ====
section
/-! DEFINITION. The layout of the lanes over the bytes, as the spec tabulates it (20_memory.md R43, R45, R49): the two maps
between bits of bytes and bits of lanes, and the table of the 36 runs of bits in which lanes and bytes meet. ENC and DEC do not
use these; statements hold them against the closed forms of Operands.lean. -/

namespace Sys2Proof.Machine

/-- Bit `b` of byte `k` is bit `t` of channel `i`: the pair `(i, t)` (R43). -/
def laneOfByteBit (k b : Nat) : Nat × Nat := ((8 * k + b) / 11, (8 * k + b) % 11)

/-- Bit `t` of channel `i` is bit `b` of byte `k`: the pair `(k, b)` (R43). -/
def byteOfLaneBit (i t : Nat) : Nat × Nat := ((11 * i + t) / 8, (11 * i + t) % 8)

/-- `k0`: the first byte that lane `i` touches (R45). -/
def laneFirstByte (i : Nat) : Nat := 11 * i / 8

/-- `off`: where lane `i` starts in its first byte (R45). -/
def laneOffset (i : Nat) : Nat := 11 * i % 8

/-- `n`: how many bytes lane `i` touches (R45). -/
def laneByteCount (i : Nat) : Nat := (laneOffset i + 11 + 7) / 8

/-- A run of bits that one lane has in one byte: channel bits `chHi:chLo` are byte bits `byteHi:byteLo` (R45, R49). -/
structure Segment where
  channel : Fin 16
  chHi : Nat
  chLo : Nat
  byte : Fin 22
  byteHi : Nat
  byteLo : Nat
deriving DecidableEq, Repr

/-- The rows of R45 for channels 0 to 7. -/
def segmentsLow : List Segment :=
  [⟨0, 7, 0, 0, 7, 0⟩, ⟨0, 10, 8, 1, 2, 0⟩,
   ⟨1, 4, 0, 1, 7, 3⟩, ⟨1, 10, 5, 2, 5, 0⟩,
   ⟨2, 1, 0, 2, 7, 6⟩, ⟨2, 9, 2, 3, 7, 0⟩, ⟨2, 10, 10, 4, 0, 0⟩,
   ⟨3, 6, 0, 4, 7, 1⟩, ⟨3, 10, 7, 5, 3, 0⟩,
   ⟨4, 3, 0, 5, 7, 4⟩, ⟨4, 10, 4, 6, 6, 0⟩,
   ⟨5, 0, 0, 6, 7, 7⟩, ⟨5, 8, 1, 7, 7, 0⟩, ⟨5, 10, 9, 8, 1, 0⟩,
   ⟨6, 5, 0, 8, 7, 2⟩, ⟨6, 10, 6, 9, 4, 0⟩,
   ⟨7, 2, 0, 9, 7, 5⟩, ⟨7, 10, 3, 10, 7, 0⟩]

/-- The rows of R45 for channels 8 to 15. -/
def segmentsHigh : List Segment :=
  [⟨8, 7, 0, 11, 7, 0⟩, ⟨8, 10, 8, 12, 2, 0⟩,
   ⟨9, 4, 0, 12, 7, 3⟩, ⟨9, 10, 5, 13, 5, 0⟩,
   ⟨10, 1, 0, 13, 7, 6⟩, ⟨10, 9, 2, 14, 7, 0⟩, ⟨10, 10, 10, 15, 0, 0⟩,
   ⟨11, 6, 0, 15, 7, 1⟩, ⟨11, 10, 7, 16, 3, 0⟩,
   ⟨12, 3, 0, 16, 7, 4⟩, ⟨12, 10, 4, 17, 6, 0⟩,
   ⟨13, 0, 0, 17, 7, 7⟩, ⟨13, 8, 1, 18, 7, 0⟩, ⟨13, 10, 9, 19, 1, 0⟩,
   ⟨14, 5, 0, 19, 7, 2⟩, ⟨14, 10, 6, 20, 4, 0⟩,
   ⟨15, 2, 0, 20, 7, 5⟩, ⟨15, 10, 3, 21, 7, 0⟩]

/-- The whole table, in stream order: read by channel it is R45's, read by byte it is R49's. -/
def layoutTable : List Segment := segmentsLow ++ segmentsHigh

/-- The row of R45 for channel `i`. -/
def segmentsOfLane (i : Fin 16) : List Segment := layoutTable.filter fun s => s.channel = i

/-- The row of R49 for byte `k`. -/
def segmentsOfByte (k : Fin 22) : List Segment := layoutTable.filter fun s => s.byte = k

end Sys2Proof.Machine
end

