-- ==== Sys2Proof/Machine/Units.lean ====
section
/-! DEFINITION. The output ports of the two combinational units (10_state.md R25, R26, R35, R36). A port is not stored: it is a
function of the inputs of the same moment (R33). A data port of a failed operation has no value (R35, 93 U4; log entry 10). -/

namespace Sys2Proof.Machine

/-- The output ports of the ENC unit (R25). -/
structure EncPorts where
  /-- `enc_wire[0..21]`: the packed image; `none` stands for "unspecified" (R35). -/
  wire : Option WireImage
  /-- `enc_we`: one write enable for the 22 bytes. -/
  we : Bool
  /-- `enc_status`. -/
  status : Status
deriving DecidableEq, Repr

/-- The output ports of the DEC unit (R26). -/
structure DecPorts where
  /-- `dec_ch[0..17]`: the returned ChannelSet; `none` stands for "unspecified" (R35). -/
  ch : Option ChannelSet
  /-- `dec_valid`. -/
  valid : Bool
  /-- `dec_status`. -/
  status : Status
deriving DecidableEq, Repr

/-- The ENC unit: its outputs from `enc_ch` and `enc_len` (R25, R81). -/
def encUnit (ch : ChannelSet) (len : Len) : EncPorts :=
  match encOp ch len with
  | .ok img => { wire := some img, we := true, status := .ok }
  | .error e => { wire := none, we := false, status := e.status }

/-- The DEC unit: its outputs from `dec_wire` and `dec_len`, `d` standing for `DEFAULT_SLOT` (R26, R101). -/
def decUnit (d : Slot) (wire : WireImage) (len : Len) : DecPorts :=
  match decOp d wire len with
  | .ok cs => { ch := some cs, valid := true, status := .ok }
  | .error e => { ch := none, valid := false, status := e.status }

end Sys2Proof.Machine
end

