-- ==== Sys2Proof/Safety.lean ====
section
/-! DEFINITION. What a good state of the harness is, in the terms the statements use (10_state.md R30; 60_exceptions.md R147;
70_reset_and_hazards.md R164). A state reached through a failed operation is a good state. -/

namespace Sys2Proof.Machine

/-- Every byte of the buffer has a value and nothing else is listed: the bytes are exactly those at 0 to `L-1` (R24, R164). -/
abbrev WireBuffer.launched (wb : WireBuffer) : Prop := wb.mem.map Prod.fst = List.range wb.len

/-- What every launch establishes and every step keeps: the buffer's bytes are exactly 0 to `L-1` (R24, R164), every command fits
the buffer (R30), one status stands in `RES` for each operation done (R30), and `idx` is an index of the command list or its end
(R27, R30). -/
abbrev State.good (s : State) : Prop :=
  s.wb.launched ∧ programFits s.wb.len s.prog = true ∧ s.res.length = s.idx ∧ s.idx ≤ s.prog.length

/-- Two ChannelSets agree in bits 10:0 of every packed slot, which is all that ENC looks at (R22, R86). -/
def sameLowBits (cs cs' : ChannelSet) : Prop := ∀ i : Fin 16, cs[packedSlot i] &&& 0x7FF#16 = cs'[packedSlot i] &&& 0x7FF#16

/-- `k` steps from a state, stopping at the first that answers no next state, as the host's own run does. -/
def steps : Nat → State → Host.Outcome State Fault Refusal
  | 0, s => .next s
  | k + 1, s =>
    match step s with
    | .next t => steps k t
    | .fault f => .fault f
    | .refused r => .refused r

end Sys2Proof.Machine
end

