-- ==== Sys2Proof/Certificates/Slice0/Obligations.lean ====
section
/-! DEFINITION. What the provers are asked to show of the ChannelCodec. Each statement names the rule of spec/ it formalises; a
statement that rests on a choice of the model says so and names the log entry. -/

open Sys2Proof Sys2Proof.Machine

/-! ## Command words -/

/-- R60: a command word is `len * 2 + op`, 0 to 511, with `len` in bits 8:1 and `op` in bit 0, which is 0 for ENC and 1 for DEC
(the numbers are the spec's decision D8). -/
def Obligations.CommandWordIsTwiceLenPlusOp : Prop :=
  ∀ i : Instr, (encode i).toNat = i.len.toNat * 2 + i.op.toNat ∧ (encode i).toNat ≤ 511 ∧
    (encode i).extractLsb' 1 8 = i.len ∧ (encode i).extractLsb' 0 1 = match i with
      | .enc _ => 0#1
      | .dec _ => 1#1

/-- R65: every one of the 512 words is accepted by exactly one row of the opcode map, the row of the operation it decodes to; it
is ENC when `w & 1 = 0` and DEC when `w & 1 = 1`, and its `len` is `w[8:1]`. -/
def Obligations.EveryWordIsExactlyOneOperation : Prop :=
  ∀ w : CommandWord,
    (opcodeTable.filter fun r => r.accepts w).map OpcodeRow.mnemonic = [(decodeCommand w).mnemonic] ∧
    (w &&& 0x001#9 = 0x000#9 → decodeCommand w = .enc (w.extractLsb' 1 8)) ∧
    (w &&& 0x001#9 = 0x001#9 → decodeCommand w = .dec (w.extractLsb' 1 8)) ∧
    (w &&& 0x001#9 = 0x000#9 ∨ w &&& 0x001#9 = 0x001#9)

/-- Decode and encode agree both ways, and a number of any size decodes to an operation exactly when it is that operation's
command word (R60, R65, R67). That a wider number is rejected is the model's choice, log entry 9. -/
def Obligations.DecodeAndEncodeAgree : Prop :=
  (∀ i : Instr, decodeCommand (encode i) = i) ∧
  (∀ w : CommandWord, encode (decodeCommand w) = w) ∧
  (∀ nbits w i, decodeTableWord nbits w = some i ↔ w % 2 ^ nbits = (encode i).toNat)

/-- The worked encodings of 30_encoding.md section 5 decode to the operations they stand for. -/
def Obligations.WorkedEncodingsDecode : Prop :=
  decodeTableWord 16 0x000 = some (.enc 0) ∧ decodeTableWord 16 0x001 = some (.dec 0) ∧
  decodeTableWord 16 0x02A = some (.enc 21) ∧ decodeTableWord 16 0x02B = some (.dec 21) ∧
  decodeTableWord 16 0x02C = some (.enc 22) ∧ decodeTableWord 16 0x02D = some (.dec 22) ∧
  decodeTableWord 16 0x030 = some (.enc 24) ∧ decodeTableWord 16 0x031 = some (.dec 24) ∧
  decodeTableWord 16 0x1FE = some (.enc 255) ∧ decodeTableWord 16 0x1FF = some (.dec 255)

/-- R68: the printed form of an operation, followed by nothing or by a comment, reads back as that operation. That the printed form
is decimal without leading zeros, and that a line holding only a comment is no operation and no error, are the model's choices,
log entry 13. -/
def Obligations.AssemblerReadsWhatItPrints : Prop :=
  ∀ (i : Instr) (comment : List Char),
    assembleLine (printInstr i) = .ok (some i) ∧
    assembleLine (printInstr i ++ [' ', ';'] ++ comment) = .ok (some i) ∧
    assembleLine (';' :: comment) = .ok none

/-! ## One step of the harness -/

/-- A step runs the decoded command: where the program fits the buffer and a command stands at `idx`, the step is the execution of
the operation it decodes to, which by itself moves `idx` on by one, appends one status and leaves the program and `L` alone
(R27, R30). -/
def Obligations.StepRunsTheDecodedCommand : Prop :=
  ∀ (s : State) (w : CommandWord), programFits s.wb.len s.prog = true → s.prog[s.idx]? = some w →
    step s = exec (decodeCommand w) s ∧
    ∀ t, step s = .next t → t.idx = s.idx + 1 ∧ t.res = s.res ++ [statusOf (decodeCommand w)] ∧ t.prog = s.prog ∧
      t.wb.len = s.wb.len

/-- Where a step has no operation to do: past the last command, and where the program holds a command with `len > L`
(R30, R164, 93 U5). That the model answers so by these two refusals, at every step, is its choice: log entries 7 and 8. -/
def Obligations.StepRefusesOnlyEndAndOverlongPrograms : Prop :=
  ∀ s : State,
    (programFits s.wb.len s.prog = false → step s = .refused .lenBeyondBuffer) ∧
    (programFits s.wb.len s.prog = true → s.prog.length ≤ s.idx → step s = .refused .runEnded) ∧
    (∀ r, programFits s.wb.len s.prog = true → s.idx < s.prog.length → step s ≠ .refused r)

/-- A command placed by `withFetchWord` is what the next step runs, and it completes; the placing changes neither `CS`, `RES`,
`idx` nor any byte of the buffer that has a value. It rests on the model's launch, log entry 6. -/
def Obligations.PlacedCommandRunsNextAndCompletes : Prop :=
  ∀ (s : State) (nbits w : Nat) (i : Instr), decodeTableWord nbits w = some i →
    step (s.withFetchWord nbits w) = exec i (s.withFetchWord nbits w) ∧
    (∃ t : State, step (s.withFetchWord nbits w) = .next t) ∧
    (s.withFetchWord nbits w).cs = s.cs ∧ (s.withFetchWord nbits w).res = s.res ∧ (s.withFetchWord nbits w).idx = s.idx ∧
    ∀ a v, s.wb.readByte a = .ok v → (s.withFetchWord nbits w).wb.readByte a = .ok v

/-- A length the buffer does not have is refused by both operations (R30, R163, 93 U5; log entry 7). -/
def Obligations.LenBeyondBufferIsRefused : Prop :=
  ∀ (i : Instr) (s : State), s.wb.len < i.len.toNat → exec i s = .refused .lenBeyondBuffer

/-! ## ENC and DEC in the harness: what each completes with -/

/-- R80, whole: for every state and every length the buffer has, ENC answers a next state. Below 22 nothing changes but `RES` and
`idx`. From 22 on, byte `k` is `(A >> 8k) & 0xFF` of the sum of the masked slots shifted by `11*i`, every other byte reads as
before, and nothing else changes but `RES` and `idx`. Its command word is `len * 2`, and its example is as given. -/
def Obligations.EncCompletesWithThePackedImage : Prop :=
  (∀ (len : Len) (s : State), len.toNat ≤ s.wb.len →
    (len.toNat < 22 → exec (.enc len) s = .next { s with res := s.res ++ [Status.tooSmall], idx := s.idx + 1 }) ∧
    (22 ≤ len.toNat → ∃ t : State, exec (.enc len) s = .next t ∧
      t.cs = s.cs ∧ t.res = s.res ++ [Status.ok] ∧ t.idx = s.idx + 1 ∧ t.prog = s.prog ∧ t.wb.len = s.wb.len ∧
      (∀ k : Fin 22, t.wb.readByte k.val = .ok (BitVec.ofNat 8
        (((∑ i : Fin 16, (s.cs[packedSlot i] &&& 0x7FF#16).toNat <<< (11 * i.val)) >>> (8 * k.val)) &&& 0xFF))) ∧
      ∀ a, 22 ≤ a → t.wb.readByte a = s.wb.readByte a)) ∧
  (∀ len : Len, (encode (.enc len)).toNat = len.toNat * 2 + 0) ∧
  (∀ s : State, 22 ≤ s.wb.len → s.cs[0] = 1#16 → (∀ i : Fin 16, i ≠ 0 → s.cs[packedSlot i] = 0#16) →
    ∃ t : State, exec (.enc 22#8) s = .next t ∧ t.wb.readByte 0 = .ok 0x01#8 ∧ t.res = s.res ++ [Status.ok] ∧
      ∀ k, 1 ≤ k → k ≤ 21 → t.wb.readByte k = .ok 0x00#8)

/-- R100, whole: for every state and every length the buffer has, where for 22 and more the 22 bytes read, DEC answers a next
state. Below 22 nothing changes but `RES` and `idx`. From 22 on, slot `i` of 0 to 15 is `(A >> 11i) & 0x7FF` of the sum of the
bytes shifted by `8*k`, slots 16 and 17 are the default, and nothing else changes but `RES` and `idx`. Its command word is
`len * 2 + 1`, and its example is as given, with the default named. -/
def Obligations.DecCompletesWithTheUnpackedSlots : Prop :=
  (∀ (len : Len) (s : State), len.toNat ≤ s.wb.len →
    (len.toNat < 22 → exec (.dec len) s = .next { s with res := s.res ++ [Status.tooShort], idx := s.idx + 1 }) ∧
    (22 ≤ len.toNat → ∀ b : WireImage, (∀ k : Fin 22, s.wb.readByte k.val = .ok b[k]) →
      ∃ cs : ChannelSet, exec (.dec len) s = .next { s with cs := cs, res := s.res ++ [Status.ok], idx := s.idx + 1 } ∧
      (∀ i : Fin 16, cs[packedSlot i] = BitVec.ofNat 16
        (((∑ k : Fin 22, b[k].toNat <<< (8 * k.val)) >>> (11 * i.val)) &&& 0x7FF)) ∧
      cs[16] = Config.defaultSlot ∧ cs[17] = Config.defaultSlot)) ∧
  (∀ len : Len, (encode (.dec len)).toNat = len.toNat * 2 + 1) ∧
  (∀ s : State, s.wb.readByte 0 = .ok 0x01#8 → (∀ k, 1 ≤ k → k ≤ 21 → s.wb.readByte k = .ok 0x00#8) →
    ∃ t : State, exec (.dec 22#8) s = .next t ∧ t.cs[0] = 1#16 ∧ t.res = s.res ++ [Status.ok] ∧
      (∀ i : Fin 16, i ≠ 0 → t.cs[packedSlot i] = 0#16) ∧ t.cs[16] = Config.defaultSlot ∧ t.cs[17] = Config.defaultSlot)

/-- DEC with 22 bytes or more offered stops where one of bytes 0 to 21 has no value. R164 says every byte must have one; the fault
is the model's choice, log entry 5. -/
def Obligations.DecStopsOnByteWithoutValue : Prop :=
  ∀ (len : Len) (s : State) (k : Nat), 22 ≤ len.toNat → len.toNat ≤ s.wb.len → k < 22 →
    s.wb.readByte k = .error .byteWithoutValue → exec (.dec len) s = .fault .byteWithoutValue

/-- R87: whenever ENC goes on, `CS` is unchanged; after a success bytes 0 to 21 are those of the image whatever they held,
and every other byte reads as before; after a failure every byte reads as before and the buffer is the same. Program and `L` are
unchanged. -/
def Obligations.EncWritesBytes0To21AndNothingElse : Prop :=
  ∀ (len : Len) (s t : State), exec (.enc len) s = .next t →
    t.cs = s.cs ∧ t.prog = s.prog ∧ t.wb.len = s.wb.len ∧
    (22 ≤ len.toNat → (∀ k : Fin 22, t.wb.readByte k.val = .ok (imageOfSet s.cs)[k]) ∧
      ∀ a, 22 ≤ a → t.wb.readByte a = s.wb.readByte a) ∧
    (len.toNat < 22 → t.wb = s.wb)

/-- R108: whenever DEC goes on, no byte of `WB` is changed; after a success all 18 slots are those of bytes 0 to 21,
whatever `CS` held and whatever the bytes from 22 on hold; after a failure `CS` is unchanged. -/
def Obligations.DecReplacesAllSlotsAndNoByte : Prop :=
  ∀ (len : Len) (s t : State), exec (.dec len) s = .next t →
    t.wb = s.wb ∧ t.prog = s.prog ∧
    (22 ≤ len.toNat → ∃ b : WireImage, (∀ k : Fin 22, s.wb.readByte k.val = .ok b[k]) ∧
      t.cs = setOfImage Config.defaultSlot b) ∧
    (len.toNat < 22 → t.cs = s.cs)

/-! ## The guard, the two errors, and what they leave -/

/-- R81: ENC's guard. At the ports and in the harness, below 22 ENC is the error, the write enable is 0, the status is
`ST_TOO_SMALL` and no byte of `WB` changes, whatever `CS` holds; from 22 on it succeeds. -/
def Obligations.EncGuardIsLengthBelow22 : Prop :=
  ∀ (len : Len),
    (len.toNat < 22 →
      (∀ cs, encOp cs len = .error .bufferTooSmall ∧ (encUnit cs len).we = false ∧ (encUnit cs len).status = .tooSmall) ∧
      ∀ s t : State, exec (.enc len) s = .next t → t.wb = s.wb ∧ t.res = s.res ++ [Status.tooSmall]) ∧
    (22 ≤ len.toNat → (∀ cs, (encUnit cs len).we = true ∧ (encUnit cs len).status = .ok) ∧
      ∀ s : State, len.toNat ≤ s.wb.len → ∃ t : State, exec (.enc len) s = .next t ∧ t.res = s.res ++ [Status.ok])

/-- R101: DEC's guard. At the ports and in the harness, below 22 DEC returns the error and no ChannelSet, `dec_valid` is 0, the
status is `ST_TOO_SHORT` and `CS` keeps its value, whatever the bytes hold; from 22 on it succeeds. -/
def Obligations.DecGuardIsLengthBelow22 : Prop :=
  ∀ (len : Len),
    (len.toNat < 22 →
      (∀ d b, decOp d b len = .error .bufferTooShort ∧ (decUnit d b len).valid = false ∧ (decUnit d b len).status = .tooShort) ∧
      ∀ s t : State, exec (.dec len) s = .next t → t.cs = s.cs ∧ t.res = s.res ++ [Status.tooShort]) ∧
    (22 ≤ len.toNat → (∀ d b, (decUnit d b len).valid = true ∧ (decUnit d b len).status = .ok) ∧
      ∀ s : State, len.toNat ≤ s.wb.len → (∀ k, k < 22 → ∃ v, s.wb.readByte k = .ok v) →
        ∃ t : State, exec (.dec len) s = .next t ∧ t.res = s.res ++ [Status.ok])

/-- R64 (the numbers are the spec's decision D4): the codes are 0, 1 and 2; ENC reports 0 or 1 and DEC 0 or 2, at the ports and in
`RES`; 3 is never produced. -/
def Obligations.StatusCodesAreZeroOneTwo : Prop :=
  (Status.ok.code = 0#2 ∧ Status.tooSmall.code = 1#2 ∧ Status.tooShort.code = 2#2) ∧
  (∀ st : Status, st.code ≠ 3#2) ∧
  (∀ cs len, (encUnit cs len).status.code = if len.toNat < 22 then 1#2 else 0#2) ∧
  (∀ d b len, (decUnit d b len).status.code = if len.toNat < 22 then 2#2 else 0#2) ∧
  (∀ (i : Instr) (s t : State), exec i s = .next t → ∃ st, t.res = s.res ++ [st] ∧ st.code = match i with
    | .enc len => if len.toNat < 22 then 1#2 else 0#2
    | .dec len => if len.toNat < 22 then 2#2 else 0#2)

/-- R144 (that `CS` keeps its value after a failed DEC is the spec's decision D18): a failed operation ends with its code and no
data, writes no operand, and the harness moves on by one, as after a success: after it the state is bit for bit the state before
it but for `RES` and `idx`. -/
def Obligations.FailedOperationLeavesOperandsAsTheyWere : Prop :=
  ∀ (i : Instr) (s : State), i.len.toNat < 22 → i.len.toNat ≤ s.wb.len →
    (∃ t : State, exec i s = .next t ∧ t = { s with res := s.res ++ [(errorOf i).status], idx := s.idx + 1 }) ∧
    (∀ cs, (encUnit cs i.len).wire = none) ∧ (∀ d b, (decUnit d b i.len).ch = none)

/-- An error is not sticky (60_exceptions.md section 4: R146, which the spec marks derived from R20 and R144). After a failed
operation the next operation, of either unit, does to the operands what it would have done without the failed one, stops where it
would have stopped, and reports the same status; the same operation again fails again. -/
def Obligations.ErrorIsNotSticky : Prop :=
  ∀ (i j : Instr) (s t : State), i.len.toNat < 22 → exec i s = .next t →
    (∀ u, exec j s = .next u → ∃ v : State, exec j t = .next v ∧ v.cs = u.cs ∧ v.wb = u.wb ∧ v.prog = u.prog ∧
      u.res = s.res ++ [statusOf j] ∧ v.res = t.res ++ [statusOf j]) ∧
    (∀ f, exec j s = .fault f ↔ exec j t = .fault f) ∧
    (∀ r, exec j s = .refused r ↔ exec j t = .refused r) ∧
    ∃ u : State, exec i t = .next u ∧ u.res = t.res ++ [(errorOf i).status]

/-- R125: whatever the data, an operation that goes on reports the one status of its length, and succeeds exactly when `len >= 22`;
in particular 21 fails and 22 succeeds on every buffer that has the bytes. -/
def Obligations.SuccessIsExactlyLen22OrMore : Prop :=
  (∀ (i : Instr) (s t : State), exec i s = .next t →
    t.res = s.res ++ [if 22 ≤ i.len.toNat then Status.ok else (errorOf i).status] ∧
    (t.res = s.res ++ [Status.ok] ↔ 22 ≤ i.len.toNat)) ∧
  (∀ s : State, 22 ≤ s.wb.len → (∀ k, k < 22 → ∃ v, s.wb.readByte k = .ok v) →
    (∃ t : State, exec (.enc 21#8) s = .next t ∧ t.res = s.res ++ [Status.tooSmall]) ∧
    (∃ t : State, exec (.dec 21#8) s = .next t ∧ t.res = s.res ++ [Status.tooShort]) ∧
    (∃ t : State, exec (.enc 22#8) s = .next t ∧ t.res = s.res ++ [Status.ok]) ∧
    (∃ t : State, exec (.dec 22#8) s = .next t ∧ t.res = s.res ++ [Status.ok]))

/-- The harness does what the ports say (R25, R26, R30). It appends the unit's status. `enc_wire` has a value exactly when `enc_we`
is 1, it is then the image, and it is committed; with `enc_we` 0 the buffer stays. `dec_ch` has a value exactly when `dec_valid` is
1, it is then the set of the bytes at `dec_wire`, and `CS` becomes it; with `dec_valid` 0 `CS` stays. That a port without a value is
`none`, and what `dec_wire` carries beyond the bytes that are offered or have a value, are the model's choices, log entries 10
and 11. -/
def Obligations.HarnessFollowsThePorts : Prop :=
  (∀ (len : Len) (s t : State), exec (.enc len) s = .next t →
    t.res = s.res ++ [(encUnit s.cs len).status] ∧
    (∀ img, (encUnit s.cs len).wire = some img ↔ (encUnit s.cs len).we = true ∧ img = imageOfSet s.cs) ∧
    (∀ img, (encUnit s.cs len).wire = some img → ∀ k : Fin 22, t.wb.readByte k.val = .ok img[k]) ∧
    ((encUnit s.cs len).we = false → t.wb = s.wb)) ∧
  (∀ (len : Len) (s t : State), exec (.dec len) s = .next t → ∃ b,
    s.wb.decPort s.idx len = .ok b ∧ t.res = s.res ++ [(decUnit Config.defaultSlot b len).status] ∧
    (∀ cs, (decUnit Config.defaultSlot b len).ch = some cs ↔
      (decUnit Config.defaultSlot b len).valid = true ∧ cs = setOfImage Config.defaultSlot b) ∧
    (∀ cs, (decUnit Config.defaultSlot b len).ch = some cs → t.cs = cs) ∧
    ((decUnit Config.defaultSlot b len).valid = false → t.cs = s.cs))

/-! ## The bit stream and the layout -/

/-- R41: bit `b` of byte `k` is stream bit `8k+b`, and the stream is the little-endian number of the 22 bytes. -/
def Obligations.ByteOrderOfTheStream : Prop :=
  ∀ img : WireImage,
    (∀ (k : Fin 22) (b : Fin 8), img[k].getLsbD b.val = imageBit img ⟨8 * k.val + b.val, by omega⟩) ∧
    (∀ j : Fin 176, imageBit img j = (∑ k : Fin 22, img[k].toNat * 2 ^ (8 * k.val)).testBit j.val)

/-- R42: bit `t` of channel `i` is stream bit `11i+t`, and the stream is the sum of the channels times `2^(11i)`. -/
def Obligations.LaneOrderOfTheStream : Prop :=
  ∀ ch : Channels,
    (∀ (i : Fin 16) (t : Fin 11), (ch.get i).getLsbD t.val = channelBit ch ⟨11 * i.val + t.val, by omega⟩) ∧
    (∀ j : Fin 176, channelBit ch j = (∑ i : Fin 16, (ch.get i).toNat * 2 ^ (11 * i.val)).testBit j.val) ∧
    (∀ j : Fin 176, imageBit (packChannels ch) j = channelBit ch j)

/-- The two views together (20_memory.md section 1: R43, which the spec marks derived from R41 and R42): in the image that ENC
makes, bit `b` of byte `k` is bit `t` of channel `i` with `8k+b = 11i+t`, both ways, and the two maps of places are inverse to
each other, so each bit of each belongs to exactly one bit of the other. -/
def Obligations.ByteBitsAndLaneBitsMatch : Prop :=
  (∀ (cs : ChannelSet) (k : Fin 22) (b : Fin 8) (i : Fin 16) (t : Fin 11), 8 * k.val + b.val = 11 * i.val + t.val →
    (imageOfSet cs)[k].getLsbD b.val = cs[packedSlot i].getLsbD t.val) ∧
  (∀ k b : Nat, k < 22 → b < 8 → (laneOfByteBit k b).1 < 16 ∧ (laneOfByteBit k b).2 < 11 ∧
    byteOfLaneBit (laneOfByteBit k b).1 (laneOfByteBit k b).2 = (k, b)) ∧
  (∀ i t : Nat, i < 16 → t < 11 → (byteOfLaneBit i t).1 < 22 ∧ (byteOfLaneBit i t).2 < 8 ∧
    laneOfByteBit (byteOfLaneBit i t).1 (byteOfLaneBit i t).2 = (i, t))

/-- R45 and R49: every run of the layout table is as long in its byte as in its channel and holds in every image, the runs of a
lane are in the bytes `k0` to `k0+n-1` and cover its 11 bits, and a lane touches 3 bytes exactly when it is lane 2, 5, 10 or 13,
and 2 bytes otherwise. -/
def Obligations.LayoutTableHolds : Prop :=
  (∀ g : Segment, g ∈ layoutTable →
    g.chLo ≤ g.chHi ∧ g.byteLo ≤ g.byteHi ∧ g.byteHi - g.byteLo = g.chHi - g.chLo) ∧
  (∀ (cs : ChannelSet) (g : Segment), g ∈ layoutTable → ∀ u : Nat, u ≤ g.chHi - g.chLo →
    (imageOfSet cs)[g.byte].getLsbD (g.byteLo + u) = cs[packedSlot g.channel].getLsbD (g.chLo + u)) ∧
  (∀ i : Fin 16, (segmentsOfLane i).map (fun g => g.byte.val) =
      (List.range (laneByteCount i.val)).map (fun n => laneFirstByte i.val + n) ∧
    ((segmentsOfLane i).map fun g => g.chHi + 1 - g.chLo).sum = 11 ∧
    laneByteCount i.val = if i.val ∈ [2, 5, 10, 13] then 3 else 2) ∧
  (∀ k : Fin 22, ((segmentsOfByte k).map fun g => g.byteHi + 1 - g.byteLo).sum = 8 ∧
    ((segmentsOfByte k).length = if k.val ∈ [0, 3, 7, 10, 11, 14, 18, 21] then 1 else 2))

/-- R82: masking is `& 0x7FF`, which is `mod 2048`, which is bits 10:0: no saturation and no error, and no slot's bits above bit 10
reach any byte, whatever the 16 slots hold. -/
def Obligations.MaskKeepsTheLow11Bits : Prop :=
  (∀ v : Slot, (maskSlot v).toNat = (v &&& 0x7FF#16).toNat ∧ (maskSlot v).toNat = v.toNat % 2048 ∧
    maskSlot v = v.extractLsb' 0 11) ∧
  (maskSlot 2048#16 = 0#11 ∧ maskSlot 2049#16 = 1#11 ∧ maskSlot 65535#16 = 2047#11) ∧
  (∀ (cs : ChannelSet) (len : Len), 22 ≤ len.toNat →
    encOp cs len = .ok (imageOfSet (cs.map fun v => v &&& 0x7FF#16)))

/-- R83: `A` is below `2^176`, byte `k` of the image is `A[8k+7:8k]`, bit by bit it is the masked slot's bit, and the sum is the
OR of the shifted lanes. -/
def Obligations.PackedImageIsTheStreamCutInBytes : Prop :=
  ∀ cs : ChannelSet,
    streamOfChannels (channelsOfSet cs) < 2 ^ 176 ∧
    (∀ k : Fin 22, (imageOfSet cs)[k].toNat = streamOfChannels (channelsOfSet cs) / 2 ^ (8 * k.val) % 2 ^ 8) ∧
    (∀ j : Fin 176, imageBit (imageOfSet cs) j =
      (maskSlot (cs[j.val / 11])).getLsbD (j.val % 11)) ∧
    streamOfChannels (channelsOfSet cs) =
      (List.finRange 16).foldl (fun a i => a ||| (maskSlot (cs[packedSlot i])).toNat <<< (11 * i.val)) 0

/-- R102: channel `i` is `A[11i+10:11i]`, bit by bit `WB[k][b]` with `11i+t = 8k+b`. -/
def Obligations.ExtractedChannelIsTheStreamCutInLanes : Prop :=
  ∀ img : WireImage,
    (∀ i : Fin 16, ((unpackImage img).get i).toNat = streamOfImage img / 2 ^ (11 * i.val) % 2 ^ 11) ∧
    (∀ (i : Fin 16) (t : Fin 11), ((unpackImage img).get i).getLsbD t.val =
      (img[(11 * i.val + t.val) / 8]).getLsbD ((11 * i.val + t.val) % 8))

/-- R103: a packed slot of a DEC result is the 11-bit channel zero extended: at most 2047, bits 15:11 are 0. -/
def Obligations.DecResultIsZeroExtended : Prop :=
  ∀ (d : Slot) (img : WireImage) (i : Fin 16),
    (setOfImage d img)[packedSlot i] = ((unpackImage img).get i).zeroExtend 16 ∧
    ((setOfImage d img)[packedSlot i]).toNat ≤ 2047 ∧
    ∀ t : Nat, 11 ≤ t → ((setOfImage d img)[packedSlot i]).getLsbD t = false

/-- R106: slots 16 and 17 of a DEC result are the default, for every value of it, and no byte has any effect on them; in the harness
they are `Config.defaultSlot` after every successful DEC. -/
def Obligations.UnpackedSlotsAreTheDefault : Prop :=
  (∀ (d : Slot) (img : WireImage), (setOfImage d img)[16] = d ∧ (setOfImage d img)[17] = d) ∧
  (∀ (len : Len) (s t : State), exec (.dec len) s = .next t → t.res = s.res ++ [Status.ok] →
    t.cs[16] = Config.defaultSlot ∧ t.cs[17] = Config.defaultSlot)

/-! ## The other forms of the two operations -/

/-- 40_encode.md section 2 (R84, which the spec marks derived from R83): the 22 unrolled formulas are the packed image, and bytes
11 to 21 are bytes 0 to 10 with channels 8 to 15 in place of 0 to 7. -/
def Obligations.UnrolledEncFormulasAgree : Prop :=
  (∀ cs : ChannelSet, unrolledImage (channelsOfSet cs) = imageOfSet cs) ∧
  (∀ ch ch' : Channels, (∀ i : Fin 8, ch'[i.val] = ch[i.val + 8]) →
    ∀ k : Fin 11, (packChannels ch)[k.val + 11] = (packChannels ch')[k.val])

/-- 40_encode.md section 2 (R85, whose agreement the spec marks derived from R83): the bit accumulator emits exactly the 22 bytes
of the image, ends with nothing pending, and never holds more than 18 bits. -/
def Obligations.AccumulatorEncAgrees : Prop :=
  ∀ cs : ChannelSet,
    (accumulateEnc .empty (channelsOfSet cs).toList).2 = (imageOfSet cs).toList ∧
    (accumulateEnc .empty (channelsOfSet cs).toList).1.pend = 0 ∧
    (accumulateEnc .empty (channelsOfSet cs).toList).1.cnt = 0 ∧
    (accumulateEnc .empty (channelsOfSet cs).toList).1.peak < 2 ^ 18

/-- 41_decode.md section 2 (R104, which the spec marks derived from R102): the 16 unrolled formulas are the extracted channels,
and channels 8 to 15 are channels 0 to 7 with every byte index raised by 11. -/
def Obligations.UnrolledDecFormulasAgree : Prop :=
  (∀ img : WireImage, unrolledChannels img = unpackImage img) ∧
  (∀ img img' : WireImage, (∀ k : Fin 11, img'[k.val] = img[k.val + 11]) →
    ∀ i : Fin 8, (unpackImage img)[i.val + 8] = (unpackImage img')[i.val])

/-- 41_decode.md section 2 (R105, whose agreement the spec marks derived from R102): the bit accumulator stores exactly the
extracted channels, reads all 22 bytes and no more, ends with nothing pending, and never holds more than 18 bits. -/
def Obligations.AccumulatorDecAgrees : Prop :=
  ∀ img : WireImage,
    (accumulateDec 16 .empty img.toList).2 = (unpackImage img).toList ∧
    (accumulateDec 16 .empty img.toList).1.2 = [] ∧
    (accumulateDec 16 .empty img.toList).1.1.pend = 0 ∧
    (accumulateDec 16 .empty img.toList).1.1.cnt = 0 ∧
    (accumulateDec 16 .empty img.toList).1.1.peak < 2 ^ 18

/-! ## The laws of the pair -/

/-- R120: decoding what was encoded gives back every packed slot that was at most 2047. -/
def Obligations.RoundTripOfReducedSlots : Prop :=
  ∀ (d : Slot) (cs : ChannelSet), (∀ i : Fin 16, (cs[packedSlot i]).toNat ≤ 2047) →
    ∀ i : Fin 16, (setOfImage d (imageOfSet cs))[packedSlot i] = cs[packedSlot i]

/-- R121: for every ChannelSet with no restriction at all, encoding then decoding masks each packed slot. -/
def Obligations.RoundTripMasksEverySlot : Prop :=
  ∀ (d : Slot) (cs : ChannelSet),
    ∀ i : Fin 16, (setOfImage d (imageOfSet cs))[packedSlot i] = cs[packedSlot i] &&& 0x7FF#16

/-- 42_codec_laws.md section 1 (R122, which the spec marks derived from R83 and R102): encoding what was decoded gives back all 22
bytes, for every image. -/
def Obligations.ReverseRoundTripOfEveryImage : Prop :=
  ∀ (d : Slot) (b : WireImage), imageOfSet (setOfImage d b) = b

/-- 42_codec_laws.md section 1 (R123, which the spec marks derived from R120 and R122): on 16 packed slots of at most 2047,
encoding is one-to-one and onto the 22-byte images, and decoding is its inverse; two images never decode to the same packed slots;
two ChannelSets give the same image exactly when their packed slots agree in bits 10:0. -/
def Obligations.EncodingIsABijection : Prop :=
  Function.Bijective packChannels ∧
  (∀ (d : Slot) (ch : Channels), channelsOfSet (widenChannels d ch) = ch ∧ imageOfSet (widenChannels d ch) = packChannels ch) ∧
  (∀ ch : Channels, unpackImage (packChannels ch) = ch) ∧ (∀ b : WireImage, packChannels (unpackImage b) = b) ∧
  (∀ (d : Slot) (b b' : WireImage),
    (∀ i : Fin 16, (setOfImage d b)[packedSlot i] = (setOfImage d b')[packedSlot i]) → b = b') ∧
  (∀ cs cs' : ChannelSet, imageOfSet cs = imageOfSet cs' ↔
    ∀ i : Fin 16, cs[packedSlot i] &&& 0x7FF#16 = cs'[packedSlot i] &&& 0x7FF#16)

/-- R124: where two ChannelSets agree on every packed slot but `i`, their images have the same bit at every place outside lane `i`,
and differ at a place inside it exactly when the slots differ there; the bytes that can differ are lane `i`'s 2 or 3. -/
def Obligations.LanesAreIndependent : Prop :=
  ∀ (cs cs' : ChannelSet) (i : Fin 16), (∀ n : Fin 16, n ≠ i → cs[packedSlot n] = cs'[packedSlot n]) →
    (∀ j : Fin 176, j.val < 11 * i.val ∨ 11 * i.val + 11 ≤ j.val → imageBit (imageOfSet cs) j = imageBit (imageOfSet cs') j) ∧
    (∀ (j : Fin 176) (t : Fin 11), j.val = 11 * i.val + t.val →
      (imageBit (imageOfSet cs) j ≠ imageBit (imageOfSet cs') j ↔
        cs[packedSlot i].getLsbD t.val ≠ cs'[packedSlot i].getLsbD t.val)) ∧
    (∀ k : Fin 22, (imageOfSet cs)[k] ≠ (imageOfSet cs')[k] → k ∈ (segmentsOfLane i).map Segment.byte)

/-- R126: the status and the data of either unit are the same for the same inputs and the same side of 22, whatever else differs. -/
def Obligations.UnitsArePureFunctions : Prop :=
  (∀ (cs cs' : ChannelSet) (len len' : Len),
    sameLowBits cs cs' → (22 ≤ len.toNat ↔ 22 ≤ len'.toNat) → encUnit cs len = encUnit cs' len') ∧
  (∀ (d : Slot) (img : WireImage) (len len' : Len), (22 ≤ len.toNat ↔ 22 ≤ len'.toNat) →
    decUnit d img len = decUnit d img len')

/-- 42_codec_laws.md section 3 (R131, which the spec marks derived from R83 and R102): encoding and decoding move bits and compute
none, so they commute with OR, AND and XOR, slot by slot and byte by byte. -/
def Obligations.CodecCommutesWithBitwiseOperations : Prop :=
  (∀ cs d : ChannelSet,
    imageOfSet (Vector.zipWith (· ||| ·) cs d) = Vector.zipWith (· ||| ·) (imageOfSet cs) (imageOfSet d) ∧
    imageOfSet (Vector.zipWith (· &&& ·) cs d) = Vector.zipWith (· &&& ·) (imageOfSet cs) (imageOfSet d) ∧
    imageOfSet (Vector.zipWith (· ^^^ ·) cs d) = Vector.zipWith (· ^^^ ·) (imageOfSet cs) (imageOfSet d)) ∧
  (∀ (e : Slot) (a b : WireImage) (i : Fin 16),
    (setOfImage e (Vector.zipWith (· ||| ·) a b))[packedSlot i] =
      (setOfImage e a)[packedSlot i] ||| (setOfImage e b)[packedSlot i] ∧
    (setOfImage e (Vector.zipWith (· &&& ·) a b))[packedSlot i] =
      (setOfImage e a)[packedSlot i] &&& (setOfImage e b)[packedSlot i] ∧
    (setOfImage e (Vector.zipWith (· ^^^ ·) a b))[packedSlot i] =
      (setOfImage e a)[packedSlot i] ^^^ (setOfImage e b)[packedSlot i])

/-- 40_encode.md section 2 (R86, which the spec marks derived from R80 and R82): what ENC reports and the 22 bytes it leaves are
the same from any two harness states whose packed slots agree in bits 10:0, whatever their other slot bits, slots 16 and 17,
buffers, results, indexes and programs hold. -/
def Obligations.EncDependsOnLowBitsAlone : Prop :=
  ∀ (len : Len) (s s' t t' : State), sameLowBits s.cs s'.cs → exec (.enc len) s = .next t → exec (.enc len) s' = .next t' →
    t.res.getLast? = t'.res.getLast? ∧
    (22 ≤ len.toNat → ∀ k : Fin 22, t.wb.readByte k.val = t'.wb.readByte k.val)

/-- 41_decode.md section 2 (R107, whose last sentence the spec marks derived from R100): every image decodes, to packed slots in
range; different images give different packed slots; and in the harness what DEC reports and the 18 slots it leaves are the same
from any two states whose bytes 0 to 21 are the same, whatever else they hold. -/
def Obligations.DecDependsOnTheImageAlone : Prop :=
  (∀ (d : Slot) (img : WireImage) (len : Len), 22 ≤ len.toNat →
    ∃ cs, decOp d img len = .ok cs ∧ ∀ i : Fin 16, (cs[packedSlot i]).toNat ≤ 2047) ∧
  (∀ (d : Slot) (a b : WireImage), a ≠ b → ∃ i : Fin 16, (setOfImage d a)[packedSlot i] ≠ (setOfImage d b)[packedSlot i]) ∧
  (∀ (len : Len) (s s' t t' : State), (∀ k, k < 22 → s.wb.readByte k = s'.wb.readByte k) →
    exec (.dec len) s = .next t → exec (.dec len) s' = .next t' →
    t.res.getLast? = t'.res.getLast? ∧ (22 ≤ len.toNat → t.cs = t'.cs))

/-- R48: an operation that went on goes on again from the state it left, and then leaves `CS` and every byte of the buffer as they
are and reports the same status. -/
def Obligations.OperationsAreIdempotent : Prop :=
  ∀ (i : Instr) (s t : State), exec i s = .next t →
    ∃ u : State, exec i t = .next u ∧ u.cs = t.cs ∧ (∀ a, u.wb.readByte a = t.wb.readByte a) ∧
      t.res = s.res ++ [statusOf i] ∧ u.res = t.res ++ [statusOf i]

/-! ## Runs of the harness -/

/-- R130, first two programs: with both lengths at least 22, ENC then DEC leaves the image in the buffer, the masked slots and the
default in `CS`; DEC then ENC leaves every byte as it was and the decoded slots in `CS`. -/
def Obligations.EncDecAndDecEncInTheHarness : Prop :=
  (∀ (len1 len2 : Len) (s : State), 22 ≤ len1.toNat → len1.toNat ≤ s.wb.len → 22 ≤ len2.toNat → len2.toNat ≤ s.wb.len →
    ∃ t u : State, exec (.enc len1) s = .next t ∧ exec (.dec len2) t = .next u ∧
      (∀ k : Fin 22, u.wb.readByte k.val = .ok (imageOfSet s.cs)[k]) ∧
      (∀ a, 22 ≤ a → u.wb.readByte a = s.wb.readByte a) ∧
      (∀ i : Fin 16, u.cs[packedSlot i] = s.cs[packedSlot i] &&& 0x7FF#16) ∧
      u.cs[16] = Config.defaultSlot ∧ u.cs[17] = Config.defaultSlot ∧ u.res = s.res ++ [Status.ok, Status.ok]) ∧
  (∀ (len1 len2 : Len) (s : State) (b : WireImage), 22 ≤ len1.toNat → len1.toNat ≤ s.wb.len → 22 ≤ len2.toNat →
    len2.toNat ≤ s.wb.len → (∀ k : Fin 22, s.wb.readByte k.val = .ok b[k]) →
    ∃ t u : State, exec (.dec len1) s = .next t ∧ exec (.enc len2) t = .next u ∧
      (∀ a, u.wb.readByte a = s.wb.readByte a) ∧ u.cs = setOfImage Config.defaultSlot b ∧ u.res = s.res ++ [Status.ok, Status.ok])

/-- R130, last program: from a good state, running to the end a list of commands whose every length is below 22 leaves `CS` and `WB`
as they were and appends one error code per command, in order. -/
def Obligations.ShortCommandsOnlyAppendErrors : Prop :=
  ∀ s : State, s.good → (∀ w ∈ s.prog.drop s.idx, (decodeCommand w).len.toNat < 22) →
    ∃ t : State, steps (s.prog.length - s.idx) s = .next t ∧ t.cs = s.cs ∧ t.wb = s.wb ∧ t.ended = true ∧
      t.res = s.res ++ (s.prog.drop s.idx).map fun w => (errorOf (decodeCommand w)).status

/-- Every step from a good state that answers a next state answers a good one: the buffer keeps exactly its bytes 0 to `L-1`, every
command fits, `RES` has one status per operation done, and `idx` stays within the list or at its end (R27, R30, R164). That the
buffer is a list of indexed bytes is the model's choice, log entry 5. -/
def Obligations.EveryStepKeepsGood : Prop :=
  ∀ s t : State, s.good → step s = .next t → t.good

/-- The state after reset is good, with `RES` empty and `idx` 0 (R30, R33). That the buffer has no byte and the command list is
empty there is the model's choice, log entries 4 and 6. -/
def Obligations.ResetIsGood : Prop :=
  State.reset.good ∧ State.reset.res = [] ∧ State.reset.idx = 0

/-- Every step keeps the canonical form of memory, from every state that has it. That memory is a list with strictly rising
indexes is the model's own representation of the bytes of `WB` (R30), its choice, log entry 5. -/
def Obligations.EveryStepKeepsMemoryCanonical : Prop :=
  ∀ s t : State, s.wb.mem.wf = true → step s = .next t → t.wb.mem.wf = true

/-- A good state never faults, and while a command is left it goes on: no command of a launched run can be stopped (R147, R164).
That a step past the last command is answered by the refusal `runEnded` is the model's choice, log entry 8. -/
def Obligations.GoodStatesStopOnlyAtTheEnd : Prop :=
  ∀ s : State, s.good →
    (s.ended = true → step s = .refused .runEnded) ∧
    (s.ended = false → ∃ t : State, step s = .next t)

/-- A launch gives every slot and byte the value it was handed, empty `RES`, `idx` 0 and the command list, in a good state, exactly
where every command fits the buffer; any other program is refused (R30, R164; log entry 7). -/
def Obligations.LaunchIsGoodOrRefused : Prop :=
  ∀ (cs : ChannelSet) (bytes : List Byte) (prog : List CommandWord),
    ((∀ w ∈ prog, (decodeCommand w).len.toNat ≤ bytes.length) → ∃ s, State.launch cs bytes prog = .ok s ∧ s.good ∧
      s.cs = cs ∧ s.wb.len = bytes.length ∧ s.res = [] ∧ s.idx = 0 ∧ s.prog = prog ∧
      ∀ (a : Nat) (h : a < bytes.length), s.wb.readByte a = .ok bytes[a]) ∧
    (∀ w ∈ prog, bytes.length < (decodeCommand w).len.toNat → State.launch cs bytes prog = .error .lenBeyondBuffer)

/-- "Every run of `n` commands ends after exactly `n` steps" (R164): from a good state the remaining commands are done one a step,
none blocks, loops or is skipped, and one status each stands in `RES`, in order; one step fewer has not ended. That the step
after the last is answered by the refusal `runEnded` is the model's choice, log entry 8. -/
def Obligations.RunOfNCommandsEndsAfterNSteps : Prop :=
  ∀ s : State, s.good →
    (∃ t : State, steps (s.prog.length - s.idx) s = .next t ∧ t.good ∧ t.ended = true ∧ step t = .refused .runEnded ∧
      t.res = s.res ++ (s.prog.drop s.idx).map fun w => statusOf (decodeCommand w)) ∧
    (∀ n, n < s.prog.length - s.idx → ∃ u : State, steps n s = .next u ∧ u.idx = s.idx + n ∧ u.ended = false)

/-! ## Several activations at once -/

/-- R52 and R36: two activities that share no operand that one of them writes, and that each would complete alone, complete together
in either order, with the same operands and each with the status it reports alone. That operands are named objects is the model's
choice, log entry 12. -/
def Obligations.IndependentActivitiesCommute : Prop :=
  ∀ (a b : Activity) (w wa wb : Bench) (ra rb : List Status), overlap a b = false →
    activate a w = .next (wa, ra) → activate b w = .next (wb, rb) →
    ∃ w', together [a, b] w = .next (w', [ra, rb]) ∧ together [b, a] w = .next (w', [rb, ra])

/-- R52 and 93 U3: overlapping use is refused: an ENC into a buffer a DEC is reading, two ENCs into one buffer, two DECs into one
ChannelSet, an ENC of a ChannelSet a DEC is writing, a host store to a ChannelSet an ENC is reading or to a buffer a DEC is reading,
at every length, wherever the two stand among the activities of the moment. Two ENCs of one ChannelSet into two buffers do not
overlap. That operands are named objects, that a failing operation counts, and the refusal's name are log entry 12; that this refusal comes
before any other stop of the moment is log entry 18. -/
def Obligations.OverlappingUseIsRefused : Prop :=
  (∀ (as bs cs : List Activity) (a b : Activity) (w : Bench), overlap a b = true →
    together (as ++ a :: bs ++ b :: cs) w = .refused .overlappingUse) ∧
  (∀ (len len' : Len) (m n k l a : Nat) (v : ChannelSet) (x : Byte),
    overlap (.operation (.enc len) m k) (.operation (.dec len') n k) = true ∧
    overlap (.operation (.enc len) m k) (.operation (.enc len') n k) = true ∧
    overlap (.operation (.dec len) m k) (.operation (.dec len') m l) = true ∧
    overlap (.operation (.enc len) m k) (.operation (.dec len') m l) = true ∧
    overlap (.operation (.enc len) m k) (.hostSet m v) = true ∧
    overlap (.operation (.dec len) m k) (.hostByte k a x) = true ∧
    (k ≠ l → overlap (.operation (.enc len) m k) (.operation (.enc len') m l) = false))

/-- Full duplex (R36, R143): an ENC and a DEC of one moment on different operands complete together, at any two lengths their
buffers have; each reports its own status on its own length, and each leaves on its operands what it leaves alone: the image or
the old buffer, the decoded set or the old one. That operands are named objects of a bench is the model's choice, log entry 12. -/
def Obligations.FullDuplexOnDifferentOperands : Prop :=
  ∀ (lenE lenD : Len) (m k n l : Nat) (w : Bench) (csE csD : ChannelSet) (wbE wbD : WireBuffer) (b : WireImage), m ≠ n → k ≠ l →
    w.sets[m]? = some csE → w.bufs[k]? = some wbE → w.sets[n]? = some csD → w.bufs[l]? = some wbD →
    lenE.toNat ≤ wbE.len → lenD.toNat ≤ wbD.len → (22 ≤ lenD.toNat → ∀ j : Fin 22, wbD.readByte j.val = .ok b[j]) →
    ∃ w' wb', together [.operation (.enc lenE) m k, .operation (.dec lenD) n l] w =
        .next (w', [[if 22 ≤ lenE.toNat then .ok else .tooSmall], [if 22 ≤ lenD.toNat then .ok else .tooShort]]) ∧
      w'.bufs = w.bufs.set k wb' ∧ wb'.len = wbE.len ∧
      (22 ≤ lenE.toNat → (∀ j : Fin 22, wb'.readByte j.val = .ok (imageOfSet csE)[j]) ∧
        ∀ a, 22 ≤ a → wb'.readByte a = wbE.readByte a) ∧
      (lenE.toNat < 22 → wb' = wbE) ∧
      (22 ≤ lenD.toNat → w'.sets = w.sets.set n (setOfImage Config.defaultSlot b)) ∧
      (lenD.toNat < 22 → w'.sets = w.sets)

/-! ## More of the assembler's text -/

/-- R68: a length is "a decimal number 0 to 255, or hexadecimal with the prefix `0x`". The hexadecimal form of every length reads as
it, with or without the comment that follows; a number above 255 is no length, in either form. That hexadecimal digits are read
in small letters too, and the names of the errors, are the model's choices, log entry 13. -/
def Obligations.AssemblerReadsHexadecimalAndNothingAbove255 : Prop :=
  (∀ (len : Len) (comment : List Char),
    assembleLine (['E', 'N', 'C', ' ', '0', 'x'] ++ Nat.toDigits 16 len.toNat) = .ok (some (.enc len)) ∧
    assembleLine (['D', 'E', 'C', ' ', '0', 'x'] ++ Nat.toDigits 16 len.toNat) = .ok (some (.dec len)) ∧
    assembleLine (['E', 'N', 'C', ' ', '0', 'x'] ++ Nat.toDigits 16 len.toNat ++ ';' :: comment) = .ok (some (.enc len)) ∧
    assembleLine (['D', 'E', 'C', ' ', '0', 'x'] ++ Nat.toDigits 16 len.toNat ++ ';' :: comment) = .ok (some (.dec len))) ∧
  (∀ n : Nat, 256 ≤ n →
    parseLen (Nat.toDigits 10 n) = none ∧ parseLen ('0' :: 'x' :: Nat.toDigits 16 n) = none ∧
    assembleLine (['E', 'N', 'C', ' '] ++ Nat.toDigits 10 n) = .error .badLength ∧
    assembleLine (['D', 'E', 'C', ' '] ++ Nat.toDigits 10 n) = .error .badLength ∧
    assembleLine (['E', 'N', 'C', ' ', '0', 'x'] ++ Nat.toDigits 16 n) = .error .badLength ∧
    assembleLine (['D', 'E', 'C', ' ', '0', 'x'] ++ Nat.toDigits 16 n) = .error .badLength)
end

