-- ==== Sys2Proof/Laws/Assembler.lean ====
section
/-! SUPPORT. What each reader of the assembler's text can do (30_encoding.md R68): the comment cut off, the words of a line, and the
number that a list of digits stands for. -/

namespace Sys2Proof.Machine

/-- Text without a `;` is kept whole, whatever follows it. -/
theorem stripComment_append {p : List Char} (h : ∀ c ∈ p, c ≠ ';') (q : List Char) :
    stripComment (p ++ q) = p ++ stripComment q := by
  induction p with
  | nil => rfl
  | cons c p ih =>
    rw [List.forall_mem_cons] at h
    simp [stripComment, h.1, ih h.2]

@[simp] theorem stripComment_comment (q : List Char) : stripComment (';' :: q) = [] := by simp [stripComment]

theorem stripComment_of_no_semicolon {p : List Char} (h : ∀ c ∈ p, c ≠ ';') : stripComment p = p := by
  simpa [stripComment] using stripComment_append h []

/-- Characters that are not blank are gathered into the word being read. -/
theorem wordsFrom_append {w : List Char} (h : ∀ c ∈ w, isBlank c = false) (q cur : List Char) :
    wordsFrom (w ++ q) cur = wordsFrom q (w.reverse ++ cur) := by
  induction w generalizing cur with
  | nil => rfl
  | cons c w ih =>
    rw [List.forall_mem_cons] at h
    simp [wordsFrom, h.1, ih h.2]

/-- A line of two words, without a comment. -/
theorem wordsFrom_two {w v : List Char} (hw : ∀ c ∈ w, isBlank c = false) (hv : ∀ c ∈ v, isBlank c = false)
    (hw0 : w ≠ []) (hv0 : v ≠ []) : wordsFrom (w ++ ' ' :: v) [] = [w, v] := by
  have last : ∀ {x : List Char}, x ≠ [] → wordsFrom [] x = [x.reverse] := by
    intro x hx
    cases x with
    | nil => exact absurd rfl hx
    | cons => rfl
  have next : ∀ {x : List Char} (q : List Char), x ≠ [] → wordsFrom (' ' :: q) x = x.reverse :: wordsFrom q [] := by
    intro x q hx
    cases x with
    | nil => exact absurd rfl hx
    | cons => simp [wordsFrom, isBlank]
  have h := wordsFrom_append hv [] []
  rw [List.append_nil, List.append_nil, last (List.reverse_ne_nil_iff.2 hv0), List.reverse_reverse] at h
  rw [wordsFrom_append hw, List.append_nil, next v (List.reverse_ne_nil_iff.2 hw0), List.reverse_reverse, h]

/-- Reading digits one list after another. -/
theorem digitsFrom_append (base : Nat) (digit : Char → Option Nat) (p q : List Char) (acc : Nat) :
    digitsFrom base digit acc (p ++ q) = (digitsFrom base digit acc p).bind fun a => digitsFrom base digit a q := by
  induction p generalizing acc with
  | nil => rfl
  | cons c p ih =>
    simp only [List.cons_append, digitsFrom]
    cases digit c with
    | none => rfl
    | some d => exact ih _

theorem decDigit_digitChar {d : Nat} (h : d < 10) : decDigit d.digitChar = some d := by
  interval_cases d <;> rfl

theorem hexDigit_digitChar {d : Nat} (h : d < 16) : hexDigit d.digitChar = some d := by
  interval_cases d <;> rfl

/-- A digit reader that reads each digit character reads a printed number as that number. -/
theorem digitsFrom_toDigits {base : Nat} {digit : Char → Option Nat} (hb : 1 < base)
    (hd : ∀ d < base, digit d.digitChar = some d) (n : Nat) : digitsFrom base digit 0 (Nat.toDigits base n) = some n := by
  induction n using Nat.strong_induction_on with
  | _ n ih =>
    rcases Nat.lt_or_ge n base with h | h
    · simp [Nat.toDigits_of_lt_base h, digitsFrom, hd n h]
    · rw [Nat.toDigits_of_base_le hb h, digitsFrom_append, ih _ (Nat.div_lt_self (by omega) hb)]
      simp [digitsFrom, hd _ (Nat.mod_lt n (by omega)), Nat.div_add_mod']

/-- Every character of a printed number is a digit character. -/
theorem exists_of_mem_toDigits {base n : Nat} (hb : 1 < base) {c : Char} (hc : c ∈ Nat.toDigits base n) :
    ∃ d < base, c = d.digitChar := by
  induction n using Nat.strong_induction_on with
  | _ n ih =>
    rcases Nat.lt_or_ge n base with h | h
    · exact ⟨n, h, by simpa [Nat.toDigits_of_lt_base h] using hc⟩
    · rw [Nat.toDigits_of_base_le hb h, List.mem_append, List.mem_singleton] at hc
      rcases hc with hc | rfl
      · exact ih _ (Nat.div_lt_self (by omega) hb) hc
      · exact ⟨_, Nat.mod_lt n (by omega), rfl⟩

end Sys2Proof.Machine
end

