-- ==== Sys2Proof/Laws/State.lean ====
section
/-! SUPPORT. What each update of the harness does to each field, one lemma a field, so that no proof unfolds an update. -/

namespace Sys2Proof.Machine

@[simp] theorem State.finish_cs (s : State) (st : Status) : (s.finish st).cs = s.cs := rfl
@[simp] theorem State.finish_wb (s : State) (st : Status) : (s.finish st).wb = s.wb := rfl
@[simp] theorem State.finish_res (s : State) (st : Status) : (s.finish st).res = s.res ++ [st] := rfl
@[simp] theorem State.finish_idx (s : State) (st : Status) : (s.finish st).idx = s.idx + 1 := rfl
@[simp] theorem State.finish_prog (s : State) (st : Status) : (s.finish st).prog = s.prog := rfl

@[simp] theorem State.takeError_cs (s : State) (e : CodecError) : (s.takeError e).cs = s.cs := rfl
@[simp] theorem State.takeError_wb (s : State) (e : CodecError) : (s.takeError e).wb = s.wb := rfl
@[simp] theorem State.takeError_res (s : State) (e : CodecError) : (s.takeError e).res = s.res ++ [e.status] := rfl
@[simp] theorem State.takeError_idx (s : State) (e : CodecError) : (s.takeError e).idx = s.idx + 1 := rfl
@[simp] theorem State.takeError_prog (s : State) (e : CodecError) : (s.takeError e).prog = s.prog := rfl

@[simp] theorem State.finishEnc_cs (s : State) (wb : WireBuffer) : (s.finishEnc wb).cs = s.cs := rfl
@[simp] theorem State.finishEnc_wb (s : State) (wb : WireBuffer) : (s.finishEnc wb).wb = wb := rfl
@[simp] theorem State.finishEnc_res (s : State) (wb : WireBuffer) : (s.finishEnc wb).res = s.res ++ [.ok] := rfl
@[simp] theorem State.finishEnc_idx (s : State) (wb : WireBuffer) : (s.finishEnc wb).idx = s.idx + 1 := rfl
@[simp] theorem State.finishEnc_prog (s : State) (wb : WireBuffer) : (s.finishEnc wb).prog = s.prog := rfl

@[simp] theorem State.finishDec_cs (s : State) (cs : ChannelSet) : (s.finishDec cs).cs = cs := rfl
@[simp] theorem State.finishDec_wb (s : State) (cs : ChannelSet) : (s.finishDec cs).wb = s.wb := rfl
@[simp] theorem State.finishDec_res (s : State) (cs : ChannelSet) : (s.finishDec cs).res = s.res ++ [.ok] := rfl
@[simp] theorem State.finishDec_idx (s : State) (cs : ChannelSet) : (s.finishDec cs).idx = s.idx + 1 := rfl
@[simp] theorem State.finishDec_prog (s : State) (cs : ChannelSet) : (s.finishDec cs).prog = s.prog := rfl

@[simp] theorem CodecError.status_bufferTooSmall : CodecError.bufferTooSmall.status = .tooSmall := rfl
@[simp] theorem CodecError.status_bufferTooShort : CodecError.bufferTooShort.status = .tooShort := rfl
@[simp] theorem errorOf_enc (len : Len) : errorOf (.enc len) = .bufferTooSmall := rfl
@[simp] theorem errorOf_dec (len : Len) : errorOf (.dec len) = .bufferTooShort := rfl

/-- The guard as an inequality of numbers. -/
@[simp] theorem lenOk_iff (len : Len) : lenOk len = true ↔ 22 ≤ len.toNat := by simp [lenOk]

@[simp] theorem lenOk_false_iff (len : Len) : lenOk len = false ↔ len.toNat < 22 := by simp [lenOk]

end Sys2Proof.Machine
end

