-- ==== Sys2Proof/Laws/Memory.lean ====
section
/-! SUPPORT. The laws of memory: read after write, every operation keeps the canonical form, and which indexes are listed. -/

namespace Sys2Proof.Machine

/-- Reading the byte just written gives it. -/
@[simp] theorem Memory.read_write_same (m : Memory) (a : Nat) (v : Byte) : (m.write a v).read a = some v := by
  induction m with
  | nil => simp [Memory.write, Memory.read]
  | cons c m ih =>
    simp only [Memory.write]
    split
    · simp [Memory.read]
    · split
      · simp [Memory.read]
      · simp_all [Memory.read]

/-- A write leaves every other byte alone. -/
theorem Memory.read_write_other (m : Memory) {a b : Nat} (v : Byte) (h : b ≠ a) : (m.write a v).read b = m.read b := by
  induction m with
  | nil => simp [Memory.write, Memory.read, h]
  | cons c m ih =>
    simp only [Memory.write]
    split
    · simp [Memory.read, h]
    · split
      · simp_all [Memory.read]
      · simp_all [Memory.read]

/-- The canonical form, as a fact about the list of indexes. -/
theorem Memory.wf_iff_sorted (m : Memory) : m.wf = true ↔ (m.map Prod.fst).Pairwise (· < ·) := by
  induction m with
  | nil => simp [Memory.wf]
  | cons c m ih =>
    cases m with
    | nil => simp [Memory.wf]
    | cons d m =>
      simp only [Memory.wf, Bool.and_eq_true, decide_eq_true_eq, ih, List.map_cons, List.pairwise_cons, List.mem_cons,
        forall_eq_or_imp]
      constructor
      · rintro ⟨h, hd, hm⟩
        exact ⟨⟨h, fun a ha => lt_trans h (hd a ha)⟩, hd, hm⟩
      · rintro ⟨⟨h, -⟩, hd, hm⟩
        exact ⟨h, hd, hm⟩

/-- What a write can list: the index written and the indexes listed before. -/
theorem Memory.mem_keys_write (m : Memory) (a : Nat) (v : Byte) (k : Nat) :
    k ∈ (m.write a v).map Prod.fst ↔ k = a ∨ k ∈ m.map Prod.fst := by
  induction m with
  | nil => simp [Memory.write]
  | cons c m ih =>
    simp only [Memory.write]
    split
    · simp
    · split
      · simp_all
      · simp only [List.map_cons, List.mem_cons, ih]
        tauto

/-- A write keeps the canonical form. -/
theorem Memory.wf_write {m : Memory} (h : m.wf = true) (a : Nat) (v : Byte) : (m.write a v).wf = true := by
  rw [Memory.wf_iff_sorted] at h ⊢
  induction m with
  | nil => simp [Memory.write]
  | cons c m ih =>
    simp only [List.map_cons, List.pairwise_cons] at h
    simp only [Memory.write]
    split
    · rename_i hlt
      simp only [List.map_cons, List.pairwise_cons, List.mem_cons, forall_eq_or_imp]
      exact ⟨⟨hlt, fun k hk => lt_trans hlt (h.1 k hk)⟩, h⟩
    · split
      · rename_i heq
        simp only [List.map_cons, List.pairwise_cons]
        exact ⟨fun k hk => heq ▸ h.1 k hk, h.2⟩
      · simp only [List.map_cons, List.pairwise_cons]
        refine ⟨fun k hk => ?_, ih h.2⟩
        rcases (Memory.mem_keys_write m a v k).1 hk with rfl | hk
        · omega
        · exact h.1 k hk

/-- A byte has a value exactly where its index is listed. -/
theorem Memory.read_isSome_iff (m : Memory) (a : Nat) : (m.read a).isSome = true ↔ a ∈ m.map Prod.fst := by
  induction m with
  | nil => simp [Memory.read]
  | cons c m ih =>
    simp only [Memory.read, List.map_cons, List.mem_cons]
    split
    · simp_all
    · simp_all

/-- Writing a byte that has a value lists no new index. -/
theorem Memory.keys_write {m : Memory} (hm : m.wf = true) {a : Nat} (ha : a ∈ m.map Prod.fst) (v : Byte) :
    (m.write a v).map Prod.fst = m.map Prod.fst := by
  rw [Memory.wf_iff_sorted] at hm
  induction m with
  | nil => simp at ha
  | cons c m ih =>
    simp only [List.map_cons, List.pairwise_cons, List.mem_cons] at hm ha
    simp only [Memory.write]
    split
    · rename_i hlt
      rcases ha with rfl | ha
      · omega
      · have := hm.1 a ha
        omega
    · split
      · simp_all
      · rename_i hne
        simp only [List.map_cons, List.cons.injEq, true_and]
        exact ih hm.2 (ha.resolve_left hne)

/-- Consecutive writes: what is read inside and outside the bytes written. -/
theorem Memory.read_writeFrom (m : Memory) (a : Nat) (vs : List Byte) (b : Nat) :
    (m.writeFrom a vs).read b = if a ≤ b ∧ b < a + vs.length then vs[b - a]? else m.read b := by
  induction vs generalizing m a with
  | nil => simp [Memory.writeFrom]
  | cons v vs ih =>
    simp only [Memory.writeFrom, ih, List.length_cons]
    by_cases hab : b = a
    · subst hab
      simp
    · rw [Memory.read_write_other m v hab]
      by_cases h : a + 1 ≤ b ∧ b < a + 1 + vs.length
      · rw [if_pos h, if_pos (by omega)]
        obtain ⟨n, rfl⟩ : ∃ n, b = a + 1 + n := ⟨b - (a + 1), by omega⟩
        rw [show a + 1 + n - (a + 1) = n by omega, show a + 1 + n - a = n + 1 by omega]
        simp
      · rw [if_neg h, if_neg (by omega)]

/-- Consecutive writes keep the canonical form. -/
theorem Memory.wf_writeFrom {m : Memory} (h : m.wf = true) (a : Nat) (vs : List Byte) : (m.writeFrom a vs).wf = true := by
  induction vs generalizing m a with
  | nil => exact h
  | cons v vs ih => exact ih (Memory.wf_write h a v) (a + 1)

/-- Consecutive writes of bytes that have a value list no new index. -/
theorem Memory.keys_writeFrom {m : Memory} (hm : m.wf = true) (a : Nat) (vs : List Byte)
    (h : ∀ k, a ≤ k → k < a + vs.length → k ∈ m.map Prod.fst) : (m.writeFrom a vs).map Prod.fst = m.map Prod.fst := by
  induction vs generalizing m a with
  | nil => rfl
  | cons v vs ih =>
    have hk := Memory.keys_write hm (h a le_rfl (by simp)) v
    rw [← hk]
    refine ih (Memory.wf_write hm a v) (a + 1) fun k h1 h2 => ?_
    rw [hk]
    exact h k (by omega) (by simp only [List.length_cons]; omega)

/-- A list whose indexes are a range is in canonical form. -/
theorem Memory.wf_of_keys_range {m : Memory} {n : Nat} (h : m.map Prod.fst = List.range n) : m.wf = true := by
  rw [Memory.wf_iff_sorted, h]
  exact List.pairwise_lt_range

/-- The reset memory is in canonical form. -/
theorem reset_mem_wf : State.reset.wb.mem.wf = true := rfl

/-- The buffer of a launch has exactly its bytes. -/
theorem WireBuffer.ofBytes_keys (bytes : List Byte) :
    (WireBuffer.ofBytes bytes).mem.map Prod.fst = List.range (WireBuffer.ofBytes bytes).len := by
  simp [WireBuffer.ofBytes, List.map_fst_zip]

/-- The buffer that a placed command is given has exactly its bytes. -/
theorem WireBuffer.provide_keys (wb : WireBuffer) (n : Nat) :
    (wb.provide n).mem.map Prod.fst = List.range (wb.provide n).len := by
  simp [WireBuffer.provide, Function.comp_def]

end Sys2Proof.Machine
end

