-- ==== Sys2Proof/Laws/Stream.lean ====
section
/-! SUPPORT. The bit stream, bit by bit: a sum of fields placed side by side has, at each place, the bit of the one field that lies
there (20_memory.md R41, R42; 42_codec_laws.md R127). -/

namespace Sys2Proof.Machine

/-- A sum of `n` fields of `w` bits each is below `2^(w*n)`: no carry leaves the top field. -/
theorem sum_shift_lt (w n : Nat) (f : Fin n → Nat) (hf : ∀ i, f i < 2 ^ w) :
    ∑ i : Fin n, f i <<< (w * i.val) < 2 ^ (w * n) := by
  induction n with
  | zero => simp
  | succ n ih =>
    rw [Fin.sum_univ_castSucc]
    have h1 := ih (fun i => f i.castSucc) (fun i => hf _)
    have h2 := hf (Fin.last n)
    simp only [Fin.val_castSucc, Fin.val_last, Nat.shiftLeft_eq] at h1 ⊢
    have h3 : f (Fin.last n) * 2 ^ (w * n) ≤ (2 ^ w - 1) * 2 ^ (w * n) := Nat.mul_le_mul_right _ (by omega)
    have h4 : 2 ^ (w * (n + 1)) = 2 ^ w * 2 ^ (w * n) := by rw [← pow_add]; congr 1; ring
    have h5 : (2 ^ w - 1) * 2 ^ (w * n) + 2 ^ (w * n) = 2 ^ w * 2 ^ (w * n) := by
      have : 0 < 2 ^ w := by positivity
      rw [← Nat.succ_mul, Nat.succ_eq_add_one, Nat.sub_add_cancel this]
    omega

/-- Bit `j` of a sum of `n` fields of `w` bits each is bit `j mod w` of field `j div w`. -/
theorem sum_shift_testBit (w n : Nat) (hw : 0 < w) (f : Fin n → Nat) (hf : ∀ i, f i < 2 ^ w) (j : Nat) :
    (∑ i : Fin n, f i <<< (w * i.val)).testBit j = if h : j / w < n then (f ⟨j / w, h⟩).testBit (j % w) else false := by
  induction n with
  | zero => simp
  | succ n ih =>
    have hs := sum_shift_lt w n (fun i => f i.castSucc) (fun i => hf _)
    have hi := ih (fun i => f i.castSucc) (fun i => hf _)
    rw [Fin.sum_univ_castSucc, Nat.add_comm, Fin.val_last, Nat.shiftLeft_eq, Nat.mul_comm (f (Fin.last n))]
    simp only [Fin.val_castSucc] at hs hi ⊢
    rw [Nat.testBit_two_pow_mul_add _ hs, hi]
    by_cases hj : j < w * n
    · have hd : j / w < n := (Nat.div_lt_iff_lt_mul hw).2 (by rwa [Nat.mul_comm] at hj)
      rw [if_pos hj, dif_pos hd, dif_pos (by omega)]
      rfl
    · rw [if_neg hj]
      by_cases hd : j / w < n + 1
      · have he : j / w = n := by
          have : n ≤ j / w := (Nat.le_div_iff_mul_le hw).2 (by rw [Nat.mul_comm]; omega)
          omega
        have hm : j - w * n = j % w := by rw [← he]; exact (Nat.mod_eq_sub j w).symm
        rw [dif_pos hd, hm]
        congr 2
        exact Fin.ext he.symm
      · rw [dif_neg hd]
        have hge : w * (n + 1) ≤ j := by
          rw [Nat.mul_comm]
          exact (Nat.le_div_iff_mul_le hw).1 (by omega)
        apply Nat.testBit_lt_two_pow
        refine lt_of_lt_of_le (hf _) (Nat.pow_le_pow_right (by decide) ?_)
        rw [Nat.mul_succ] at hge
        omega

/-- The stream of 16 channels, bit by bit (R42). -/
theorem streamOfChannels_testBit (ch : Channels) (j : Nat) :
    (streamOfChannels ch).testBit j = if h : j / 11 < 16 then (ch[j / 11]).getLsbD (j % 11) else false := by
  have := sum_shift_testBit 11 16 (by decide) (fun i => ch[i].toNat) (fun i => ch[i].isLt) j
  simpa [streamOfChannels, BitVec.getLsbD] using this

/-- The stream of 22 bytes, bit by bit (R41). -/
theorem streamOfImage_testBit (img : WireImage) (j : Nat) :
    (streamOfImage img).testBit j = if h : j / 8 < 22 then (img[j / 8]).getLsbD (j % 8) else false := by
  have := sum_shift_testBit 8 22 (by decide) (fun k => img[k].toNat) (fun k => img[k].isLt) j
  simpa [streamOfImage, BitVec.getLsbD] using this

/-- A byte cut from a stream, bit by bit (R41). -/
theorem byteOfStream_getLsbD (a : Nat) (k : Fin 22) (b : Nat) :
    (byteOfStream a k).getLsbD b = (decide (b < 8) && a.testBit (8 * k.val + b)) := by
  have hm : (0xFF : Nat).testBit b = decide (b < 8) := Nat.testBit_two_pow_sub_one 8 b
  rw [byteOfStream, BitVec.getLsbD_ofNat, Nat.testBit_and, Nat.testBit_shiftRight, hm, Bool.and_comm (Nat.testBit _ _),
    ← Bool.and_assoc, Bool.and_self]

/-- A channel cut from a stream, bit by bit (R42). -/
theorem channelOfStream_getLsbD (a : Nat) (i : Fin 16) (t : Nat) :
    (channelOfStream a i).getLsbD t = (decide (t < 11) && a.testBit (11 * i.val + t)) := by
  have hm : (0x7FF : Nat).testBit t = decide (t < 11) := Nat.testBit_two_pow_sub_one 11 t
  rw [channelOfStream, BitVec.getLsbD_ofNat, Nat.testBit_and, Nat.testBit_shiftRight, hm, Bool.and_comm (Nat.testBit _ _),
    ← Bool.and_assoc, Bool.and_self]

/-- A masked slot, bit by bit (R82). -/
theorem maskSlot_getLsbD (v : Slot) (t : Nat) : (maskSlot v).getLsbD t = (decide (t < 11) && v.getLsbD t) := by
  rw [maskSlot, BitVec.getLsbD_setWidth, BitVec.getLsbD_and]
  by_cases ht : t < 11
  · have : (0x7FF#16).getLsbD t = true := by interval_cases t <;> rfl
    rw [this, Bool.and_true]
  · simp [ht]

@[simp] theorem packedSlot_val (i : Fin 16) : (packedSlot i).val = i.val := rfl

@[simp] theorem channelsOfSet_getElem (cs : ChannelSet) (i : Nat) (h : i < 16) :
    (channelsOfSet cs)[i] = maskSlot (cs[i]'(by omega)) := by
  simp [channelsOfSet, packedSlot]

@[simp] theorem packChannels_getElem (ch : Channels) (k : Nat) (h : k < 22) :
    (packChannels ch)[k] = byteOfStream (streamOfChannels ch) ⟨k, h⟩ := by
  simp [packChannels]

@[simp] theorem unpackImage_getElem (img : WireImage) (i : Nat) (h : i < 16) :
    (unpackImage img)[i] = channelOfStream (streamOfImage img) ⟨i, h⟩ := by
  simp [unpackImage]

/-- The slots of a widened ChannelSet: packed ones from the channels, the two others the default (R103, R106). -/
@[simp] theorem widenChannels_getElem (d : Slot) (ch : Channels) (i : Nat) (h : i < 18) :
    (widenChannels d ch)[i] = if h' : i < 16 then (ch[i]).setWidth 16 else d := by
  simp [widenChannels]

end Sys2Proof.Machine
end

