-- ==== Sys2Proof/Laws/Ops.lean ====
section
/-! SUPPORT. For each shared operation over the buffer and the harness, one lemma that says once everything it can do. -/

namespace Sys2Proof.Machine

/-- One byte reads exactly where it exists and has a value. -/
theorem WireBuffer.readByte_ok_iff (wb : WireBuffer) (a : Nat) (v : Byte) :
    wb.readByte a = .ok v ↔ a < wb.len ∧ wb.mem.read a = some v := by
  unfold WireBuffer.readByte
  split
  · rename_i h
    cases hr : wb.mem.read a <;> simp [h]
  · rename_i h
    simp [h]

/-- A byte that exists and has no value. -/
theorem WireBuffer.readByte_without_value_iff (wb : WireBuffer) (a : Nat) :
    wb.readByte a = .error .byteWithoutValue ↔ a < wb.len ∧ wb.mem.read a = none := by
  unfold WireBuffer.readByte
  split
  · rename_i h
    cases hr : wb.mem.read a <;> simp [h]
  · rename_i h
    simp [h]

/-- Two buffers of one length read alike where their memories do. -/
theorem WireBuffer.readByte_congr {wb wb' : WireBuffer} {a : Nat} (hl : wb'.len = wb.len)
    (hm : wb'.mem.read a = wb.mem.read a) : wb'.readByte a = wb.readByte a := by
  simp [WireBuffer.readByte, hl, hm]

/-- The 22 bytes read exactly where each of them does. -/
theorem WireBuffer.readImage_ok_iff (wb : WireBuffer) (img : WireImage) :
    wb.readImage = .ok img ↔ ∀ k : Fin 22, wb.readByte k.val = .ok img[k] := by
  constructor
  · intro h k
    unfold WireBuffer.readImage at h
    split at h
    · simp at h
    · split at h
      · rename_i hl hs
        simp only [Except.ok.injEq] at h
        subst h
        rw [WireBuffer.readByte_ok_iff]
        exact ⟨by omega, by simp⟩
      · simp at h
  · intro h
    simp only [WireBuffer.readByte_ok_iff] at h
    have hl : ¬ wb.len < 22 := by
      have := (h 21).1
      simp at this
      omega
    have hs : ∀ k : Fin 22, (wb.mem.read k.val).isSome := fun k => by rw [(h k).2]; rfl
    unfold WireBuffer.readImage
    rw [if_neg hl, dif_pos hs]
    refine congrArg Except.ok (Vector.ext fun j hj => ?_)
    have := (h ⟨j, hj⟩).2
    simp [this]

/-- The 22 bytes of a buffer that is long enough either read or miss a value. -/
theorem WireBuffer.readImage_cases (wb : WireBuffer) (h : 22 ≤ wb.len) :
    (∃ img, wb.readImage = .ok img) ∨
      wb.readImage = .error .byteWithoutValue ∧ ∃ k < 22, wb.readByte k = .error .byteWithoutValue := by
  unfold WireBuffer.readImage
  rw [if_neg (by omega)]
  split
  · exact .inl ⟨_, rfl⟩
  · rename_i hs
    refine .inr ⟨rfl, ?_⟩
    push Not at hs
    obtain ⟨k, hk⟩ := hs
    exact ⟨k.val, k.isLt, (wb.readByte_without_value_iff _).2 ⟨by omega, by simpa using hk⟩⟩

/-- Everything a commit does: it needs 22 bytes, keeps `L`, writes bytes 0 to 21 and no other, keeps the canonical form, and in a
launched buffer lists no new index. -/
theorem WireBuffer.commitImage_ok {wb wb' : WireBuffer} {img : WireImage} (h : wb.commitImage img = .ok wb') :
    22 ≤ wb.len ∧ wb'.len = wb.len ∧
    (∀ k : Fin 22, wb'.readByte k.val = .ok img[k]) ∧
    (∀ a, 22 ≤ a → wb'.readByte a = wb.readByte a) ∧
    (wb.mem.wf = true → wb'.mem.wf = true) ∧
    (wb.mem.map Prod.fst = List.range wb.len → wb'.mem.map Prod.fst = List.range wb'.len) := by
  unfold WireBuffer.commitImage at h
  split at h
  · simp at h
  · rename_i hl
    simp only [Except.ok.injEq] at h
    subst h
    refine ⟨by omega, rfl, fun k => ?_, fun a ha => ?_, fun hw => Memory.wf_writeFrom hw _ _, fun hk => ?_⟩
    · rw [WireBuffer.readByte_ok_iff]
      refine ⟨by have := k.isLt; simp only; omega, ?_⟩
      simp [Memory.read_writeFrom, k.isLt]
    · refine WireBuffer.readByte_congr rfl ?_
      simp only [Memory.read_writeFrom, Vector.length_toList]
      rw [if_neg (by omega)]
    · rw [← hk]
      refine Memory.keys_writeFrom (Memory.wf_of_keys_range hk) _ _ fun k _ h2 => ?_
      rw [hk, List.mem_range]
      simp only [Vector.length_toList] at h2
      omega

/-- A commit completes on every buffer that has the 22 bytes. -/
theorem WireBuffer.commitImage_of_le {wb : WireBuffer} (h : 22 ≤ wb.len) (img : WireImage) :
    ∃ wb', wb.commitImage img = .ok wb' := by
  unfold WireBuffer.commitImage
  rw [if_neg (by omega)]
  exact ⟨_, rfl⟩

/-- With 22 bytes or more offered, DEC's port carries the buffer's bytes. -/
theorem WireBuffer.decPort_long (wb : WireBuffer) (idx : Nat) {len : Len} (h : 22 ≤ len.toNat) :
    wb.decPort idx len = wb.readImage := by
  simp [WireBuffer.decPort, h]

/-- With fewer, DEC's port carries something. -/
theorem WireBuffer.decPort_short (wb : WireBuffer) (idx : Nat) {len : Len} (h : len.toNat < 22) :
    ∃ img, wb.decPort idx len = .ok img := by
  rw [WireBuffer.decPort, (lenOk_false_iff len).2 h]
  exact ⟨_, rfl⟩

/-- ENC's result by the side of 22 its length is on (R81). -/
theorem encOp_short (cs : ChannelSet) {len : Len} (h : len.toNat < 22) : encOp cs len = .error .bufferTooSmall := by
  simp [encOp, h]

theorem encOp_long (cs : ChannelSet) {len : Len} (h : 22 ≤ len.toNat) : encOp cs len = .ok (imageOfSet cs) := by
  simp [encOp, h]

/-- DEC's result by the side of 22 its length is on (R101). -/
theorem decOp_short (d : Slot) (img : WireImage) {len : Len} (h : len.toNat < 22) :
    decOp d img len = .error .bufferTooShort := by
  simp [decOp, h]

theorem decOp_long (d : Slot) (img : WireImage) {len : Len} (h : 22 ≤ len.toNat) :
    decOp d img len = .ok (setOfImage d img) := by
  simp [decOp, h]

/-- Every command of a fitting program fits. -/
theorem programFits_iff (bufLen : Nat) (prog : List CommandWord) :
    programFits bufLen prog = true ↔ ∀ w ∈ prog, (decodeCommand w).len.toNat ≤ bufLen := by
  simp [programFits]

/-- What a fetch answers. -/
theorem fetch_ok_iff (s : State) (w : CommandWord) :
    fetch s = .ok w ↔ programFits s.wb.len s.prog = true ∧ s.prog[s.idx]? = some w := by
  unfold fetch
  split
  · rename_i h
    cases hp : s.prog[s.idx]? <;> simp [h]
  · rename_i h
    simp [h]

end Sys2Proof.Machine
end

