-- ==== Sys2Proof/Laws/Exec.lean ====
section
/-! SUPPORT. Inversion of the two meanings and of a step: if one answers a next state, then one of these cases holds. -/

namespace Sys2Proof.Machine

@[simp] theorem exec_enc (len : Len) (s : State) : exec (.enc len) s = execEnc len s := rfl
@[simp] theorem exec_dec (len : Len) (s : State) : exec (.dec len) s = execDec len s := rfl

/-- Everything ENC can answer as a next state. -/
theorem execEnc_next {len : Len} {s t : State} (h : execEnc len s = .next t) :
    len.toNat ≤ s.wb.len ∧
    (len.toNat < 22 ∧ t = s.takeError .bufferTooSmall ∨
      22 ≤ len.toNat ∧ ∃ wb, s.wb.commitImage (imageOfSet s.cs) = .ok wb ∧ t = s.finishEnc wb) := by
  unfold execEnc at h
  split at h
  · rename_i hf
    refine ⟨by simpa using hf, ?_⟩
    rcases lt_or_ge len.toNat 22 with hl | hl
    · rw [encOp_short _ hl] at h
      exact .inl ⟨hl, by simpa using h.symm⟩
    · rw [encOp_long _ hl] at h
      refine .inr ⟨hl, ?_⟩
      cases hc : s.wb.commitImage (imageOfSet s.cs) with
      | error f => simp [hc] at h
      | ok wb => exact ⟨wb, rfl, by simpa [hc] using h.symm⟩
  · simp at h

/-- Everything DEC can answer as a next state. -/
theorem execDec_next {len : Len} {s t : State} (h : execDec len s = .next t) :
    len.toNat ≤ s.wb.len ∧
    (len.toNat < 22 ∧ t = s.takeError .bufferTooShort ∨
      22 ≤ len.toNat ∧ ∃ img, s.wb.readImage = .ok img ∧ t = s.finishDec (setOfImage Config.defaultSlot img)) := by
  unfold execDec at h
  split at h
  · rename_i hf
    refine ⟨by simpa using hf, ?_⟩
    rcases lt_or_ge len.toNat 22 with hl | hl
    · obtain ⟨img, hp⟩ := s.wb.decPort_short s.idx hl
      rw [hp] at h
      simp only [decOp_short _ _ hl] at h
      exact .inl ⟨hl, by simpa using h.symm⟩
    · rw [s.wb.decPort_long s.idx hl] at h
      refine .inr ⟨hl, ?_⟩
      cases hr : s.wb.readImage with
      | error f => simp [hr] at h
      | ok img =>
        refine ⟨img, rfl, ?_⟩
        simp only [hr, decOp_long _ _ hl] at h
        simpa using h.symm
  · simp at h

/-- A step that answers a next state ran the command at `idx`. -/
theorem step_next {s t : State} (h : step s = .next t) :
    ∃ w, programFits s.wb.len s.prog = true ∧ s.prog[s.idx]? = some w ∧ exec (decodeCommand w) s = .next t := by
  unfold step at h
  cases hf : fetch s with
  | error r => simp [hf] at h
  | ok w =>
    rw [hf] at h
    obtain ⟨hp, hw⟩ := (fetch_ok_iff s w).1 hf
    exact ⟨w, hp, hw, h⟩

end Sys2Proof.Machine
end

