-- ==== Sys2Proof/Laws/Concurrent.lean ====
section
/-! SUPPORT. What an activity of the bench, a list of activities in order, and activities at one moment can answer
(20_memory.md R51, R52). -/

namespace Sys2Proof.Machine

theorem overlap_comm (a b : Activity) : overlap a b = overlap b a := by simp [overlap, Bool.or_comm]

@[simp] theorem reads_enc (len : Len) (m k : Nat) : (Activity.operation (.enc len) m k).reads = [.set m] := rfl
@[simp] theorem reads_dec (len : Len) (m k : Nat) : (Activity.operation (.dec len) m k).reads = [.buf k] := rfl
@[simp] theorem writes_enc (len : Len) (m k : Nat) : (Activity.operation (.enc len) m k).writes = [.buf k] := rfl
@[simp] theorem writes_dec (len : Len) (m k : Nat) : (Activity.operation (.dec len) m k).writes = [.set m] := rfl
@[simp] theorem reads_hostSet (m : Nat) (cs : ChannelSet) : (Activity.hostSet m cs).reads = [] := rfl
@[simp] theorem reads_hostByte (k a : Nat) (v : Byte) : (Activity.hostByte k a v).reads = [] := rfl
@[simp] theorem writes_hostSet (m : Nat) (cs : ChannelSet) : (Activity.hostSet m cs).writes = [.set m] := rfl
@[simp] theorem writes_hostByte (k a : Nat) (v : Byte) : (Activity.hostByte k a v).writes = [.buf k] := rfl

/-- Everything an operation on the bench can answer as a next bench: the harness's execution on its own two operands. -/
theorem activate_operation_next {i : Instr} {m k : Nat} {w w' : Bench} {r : List Status}
    (h : activate (.operation i m k) w = .next (w', r)) :
    ∃ cs wb t, w.sets[m]? = some cs ∧ w.bufs[k]? = some wb ∧
      exec i { cs := cs, wb := wb, res := [], idx := 0, prog := [] } = .next t ∧
      w' = { sets := w.sets.set m t.cs, bufs := w.bufs.set k t.wb } ∧ r = t.res := by
  simp only [activate] at h
  split at h
  · rename_i cs wb hs hb
    split at h
    · rename_i t he
      simp only [Host.Outcome.next.injEq, Prod.mk.injEq] at h
      exact ⟨cs, wb, t, hs, hb, he, h.1.symm, h.2.symm⟩
    · simp at h
    · simp at h
  · simp at h

/-- Where an operation's operands are there and it goes on, so does the activity. -/
theorem activate_operation_of_exec {i : Instr} {m k : Nat} {w : Bench} {cs : ChannelSet} {wb : WireBuffer} {t : State}
    (hs : w.sets[m]? = some cs) (hb : w.bufs[k]? = some wb)
    (he : exec i { cs := cs, wb := wb, res := [], idx := 0, prog := [] } = .next t) :
    activate (.operation i m k) w = .next ({ sets := w.sets.set m t.cs, bufs := w.bufs.set k t.wb }, t.res) := by
  simp only [activate, hs, hb, he]

theorem activate_hostSet_next {m : Nat} {cs : ChannelSet} {w w' : Bench} {r : List Status}
    (h : activate (.hostSet m cs) w = .next (w', r)) :
    m < w.sets.length ∧ w' = { w with sets := w.sets.set m cs } ∧ r = [] := by
  simp only [activate] at h
  split at h
  · rename_i hm
    simp only [Host.Outcome.next.injEq, Prod.mk.injEq] at h
    exact ⟨hm, h.1.symm, h.2.symm⟩
  · simp at h

theorem activate_hostByte_next {k a : Nat} {v : Byte} {w w' : Bench} {r : List Status}
    (h : activate (.hostByte k a v) w = .next (w', r)) :
    ∃ wb, w.bufs[k]? = some wb ∧ a < wb.len ∧
      w' = { w with bufs := w.bufs.set k { wb with mem := wb.mem.write a v } } ∧ r = [] := by
  simp only [activate] at h
  split at h
  · rename_i wb hb
    split at h
    · rename_i ha
      simp only [Host.Outcome.next.injEq, Prod.mk.injEq] at h
      exact ⟨wb, hb, ha, h.1.symm, h.2.symm⟩
    · simp at h
  · simp at h

/-- Everything activities one after another can answer as a next bench. -/
theorem inOrder_cons_next {a : Activity} {as : List Activity} {w w' : Bench} {rs : List (List Status)}
    (h : inOrder (a :: as) w = .next (w', rs)) :
    ∃ w1 r rs', activate a w = .next (w1, r) ∧ inOrder as w1 = .next (w', rs') ∧ rs = r :: rs' := by
  unfold inOrder at h
  split at h
  · rename_i w1 r h1
    split at h
    · rename_i w2 rs' h2
      simp only [Host.Outcome.next.injEq, Prod.mk.injEq] at h
      exact ⟨w1, r, rs', h1, by rw [h2, h.1], h.2.symm⟩
    · simp at h
    · simp at h
  · simp at h
  · simp at h

/-- Activities at one moment answer a next bench exactly where they are independent and complete one after another. -/
theorem together_next_iff {as : List Activity} {w w' : Bench} {rs : List (List Status)} :
    together as w = .next (w', rs) ↔ independent as = true ∧ inOrder as w = .next (w', rs) := by
  unfold together
  split
  · rename_i h
    simp [h]
  · rename_i h
    simp [h]

end Sys2Proof.Machine
end

