-- ==== Sys2Proof/Laws/PerInstr.lean ====
section
/-! SUPPORT. Facts about every operation as syntax, one lemma a constructor. -/

/-- The bits of a command word: `op` below, `len` above (30_encoding.md R60). -/
theorem Sys2Proof.encode_getLsbD (i : Sys2Proof.Instr) (n : Nat) :
    (Sys2Proof.encode i).getLsbD n = if n < 1 then i.op.getLsbD n else i.len.getLsbD (n - 1) :=
  BitVec.getLsbD_append

namespace Sys2Proof.Laws.EncodedFields

/-- The encoded word carries the operation's two fields in their places (30_encoding.md R60). -/
def Statement (i : Instr) : Prop := lenField (encode i) = i.len ∧ opField (encode i) = i.op

theorem of_instr (i : Instr) : Statement i := by
  constructor
  · ext j hj
    simp [lenField, encode_getLsbD, BitVec.getLsbD_eq_getElem hj]
  · ext j hj
    simp [opField, encode_getLsbD, hj]

theorem enc (len : Len) : Statement (.enc len) := of_instr _

theorem dec (len : Len) : Statement (.dec len) := of_instr _

end Sys2Proof.Laws.EncodedFields
end

