-- ==== Sys2Proof/Tests/Slice0.lean ====
section
/-! SUPPORT. The model's own tests: command words written out bit by bit from 30_encoding.md R60 and R65, the well-formedness smoke
test, a few operations on the vectors of 95_test_vectors.md, and for each statement of Obligations.lean that has hypotheses a
concrete state and operands that meet them together. -/

namespace Sys2Proof.Tests

open Sys2Proof.Machine

/-! ## Command words, bit 8 first (R60, R65; 30_encoding.md section 5) -/

theorem test_decode_enc_22 : decodeCommand 0b000101100#9 = .enc 22 := by decide
theorem test_decode_dec_22 : decodeCommand 0b000101101#9 = .dec 22 := by decide
theorem test_decode_enc_255 : decodeCommand 0b111111110#9 = .enc 255 := by decide
theorem test_decode_dec_0 : decodeCommand 0b000000001#9 = .dec 0 := by decide
theorem test_encode_dec_21 : encode (.dec 21) = 0b000101011#9 := by decide
theorem test_decode_refuses_wide : decode 512 = .error .widerThanCommandWord := by decide

/-! ## Well-formedness: a length one beyond the buffer is refused, the buffer's own length is not (R30) -/

theorem test_wf_refuses_len_23_of_22 : (Instr.enc 23).fits 22 = false := by decide
theorem test_wf_accepts_len_22_of_22 : (Instr.dec 22).fits 22 = true := by decide

/-! ## The parameters of R6 are those of the types -/

theorem test_channel_set_type : ChannelSet = Vector (BitVec Config.wSlot) Config.nSlot := rfl
theorem test_channels_type : Channels = Vector (BitVec Config.wCh) Config.nCh := rfl
theorem test_image_type : WireImage = Vector (BitVec 8) Config.nByte := rfl
theorem test_len_type : Len = BitVec Config.lenW := rfl
theorem test_stream_bits : Config.nCh * Config.wCh = Config.nBit ∧ Config.nByte * 8 = Config.nBit := by decide

/-! ## Small states -/

/-- The ChannelSet of vector E6. -/
def setE6 : ChannelSet :=
  #v[0x0800#16, 0x0801#16, 0x0FFF#16, 0x1000#16, 0xFFFF#16, 0xF800#16, 0x8001#16, 0x0FFF#16, 0x1234#16, 0xABCD#16,
     0xFFFE#16, 0x0800#16, 0x07FF#16, 0x7FFF#16, 0x8000#16, 0xC3A5#16, 0xDEAD#16, 0xBEEF#16]

/-- The ChannelSet of vector E6 with bits 15:11 of every slot cleared. -/
def setE6Masked : ChannelSet :=
  #v[0x0000#16, 0x0001#16, 0x07FF#16, 0x0000#16, 0x07FF#16, 0x0000#16, 0x0001#16, 0x07FF#16, 0x0234#16, 0x03CD#16,
     0x07FE#16, 0x0000#16, 0x07FF#16, 0x07FF#16, 0x0000#16, 0x03A5#16, 0x0000#16, 0x0000#16]

/-- The image of vector E6. -/
def imageE6 : List Byte :=
  [0x00#8, 0x08#8, 0xC0#8, 0xFF#8, 0x01#8, 0xF0#8, 0x7F#8, 0x00#8, 0x04#8, 0xE0#8, 0xFF#8, 0x34#8, 0x6A#8, 0x9E#8,
   0xFF#8, 0x01#8, 0xF0#8, 0xFF#8, 0xFF#8, 0x03#8, 0xA0#8, 0x74#8]

/-- The bytes of vector D4. -/
def bytesD4 : List Byte :=
  [0x07#8, 0x20#8, 0x1E#8, 0x12#8, 0x61#8, 0x7B#8, 0x0F#8, 0xED#8, 0xA7#8, 0xE1#8, 0x64#8, 0x77#8, 0x96#8, 0xFF#8,
   0x02#8, 0x2B#8, 0xEA#8, 0x8E#8, 0xD0#8, 0x2A#8, 0x82#8, 0xA1#8]

/-- A launched state with the set of E6, the given bytes and the given commands. -/
def launched (bytes : List Byte) (prog : List CommandWord) : State :=
  { cs := setE6, wb := WireBuffer.ofBytes bytes, res := [], idx := 0, prog := prog }

/-- 22 bytes of 0x5A. -/
def s22 : State := launched (List.replicate 22 0x5A#8) []

/-- Whether an outcome is a next state that passes a check. -/
def nextWith (p : State → Bool) : Host.Outcome State Fault Refusal → Bool
  | .next t => p t
  | _ => false

theorem exists_of_nextWith {p : State → Bool} {o : Host.Outcome State Fault Refusal} (h : nextWith p o = true) :
    ∃ t, o = .next t ∧ p t = true := by
  cases o with
  | next t => exact ⟨t, rfl, h⟩
  | fault f => simp [nextWith] at h
  | refused r => simp [nextWith] at h

/-! ## One step each (95_test_vectors.md P1 command 0, P2 command 0, D4, S4) -/

theorem test_enc_24_step : nextWith (fun t => decide (t.wb.mem.map Prod.snd = imageE6 ++ [0xAA#8, 0xAA#8]) && decide (t.res = [.ok]))
    (step (launched (List.replicate 24 0xAA#8) [0x030#9])) = true := by decide

theorem test_enc_21_fails_and_writes_nothing :
    nextWith (fun t => decide (t.wb = s22.wb) && decide (t.res = [.tooSmall])) (exec (.enc 21) s22) = true := by decide

theorem test_dec_22_step : nextWith (fun t => decide ((t.cs.toList.take 16).map BitVec.toNat =
      [7, 964, 1096, 1456, 247, 2010, 105, 807, 1655, 2034, 1035, 1301, 238, 1441, 138, 1292]))
    (step (launched bytesD4 [0x02D#9])) = true := by decide

theorem test_dec_21_fails_and_keeps_slots :
    nextWith (fun t => decide (t.cs = setE6) && decide (t.res = [.tooShort])) (exec (.dec 21) s22) = true := by decide

/-- R68's examples: decimal and hexadecimal lengths, a comment, and the written form of a word. -/
theorem test_assemble_two_lines :
    assemble ['E', 'N', 'C', ' ', '2', '2', ' ', ';', 'x', '\n', 'D', 'E', 'C', ' ', '0', 'x', '1', '6'] =
      .ok [0x02C#9, 0x02D#9] := by decide

theorem test_print_word : printWord 0x02C#9 = ['0', 'x', '0', '2', 'C'] := by decide

/-! ## The hypotheses of the statements are met -/

/-- The program `ENC 22` alone fits 22 bytes and stands at index 0. -/
theorem witness_step_runs : programFits 22 [0x02C#9] = true ∧
    (launched (List.replicate 22 0x5A#8) [0x02C#9]).prog[0]? = some 0x02C#9 := by decide

/-- The three cases of a step without a next state or with one: `ENC 23` in 22 bytes, no command left, and one command left. -/
theorem witness_step_refuses : programFits s22.wb.len [0x02E#9] = false ∧
    (programFits s22.wb.len s22.prog = true ∧ s22.prog.length ≤ s22.idx) ∧
    (programFits 22 [0x02C#9] = true ∧ 0 < [0x02C#9].length) := by decide

theorem witness_placed_command : decodeTableWord 16 0x1FF = some (.dec 255) ∧ decodeTableWord 16 0x02C = some (.enc 22) := by decide

/-- A byte with a value, which `witness_placed_command`'s statement keeps. -/
theorem witness_byte_reads : s22.wb.readByte 21 = .ok 0x5A#8 ∧ s22.wb.readByte 22 = .error .outsideBuffer := by decide

theorem witness_len_beyond_buffer : s22.wb.len < (Instr.enc 23).len.toNat ∧ s22.wb.len < (Instr.dec 23).len.toNat := by decide

/-- Both sides of the guard at its boundary, in a buffer that has the bytes. -/
theorem witness_guard_boundary : ((21#8).toNat < 22 ∧ (21#8).toNat ≤ s22.wb.len) ∧
    (22 ≤ (22#8).toNat ∧ (22#8).toNat ≤ s22.wb.len) := by decide

/-- All 22 bytes of `s22` read. -/
theorem witness_bytes_read : ∀ k : Fin 22, s22.wb.readByte k.val = .ok (Vector.replicate 22 0x5A#8)[k] := by decide

theorem witness_bytes_exist : ∀ k, k < 22 → ∃ v, s22.wb.readByte k = .ok v :=
  fun k hk => ⟨_, witness_bytes_read ⟨k, hk⟩⟩

/-- The example of R80: slot 0 is 1 and the other packed slots are 0. -/
theorem witness_enc_example : ∃ s : State, 22 ≤ s.wb.len ∧ s.cs[0] = 1#16 ∧ ∀ i : Fin 16, i ≠ 0 → s.cs[packedSlot i] = 0#16 :=
  ⟨{ s22 with cs := #v[1, 0, 0, 0, 0, 0, 0, 0, 0, 0, 0, 0, 0, 0, 0, 0, 7, 7] }, by decide⟩

/-- The example of R100: byte 0 is 1 and the others are 0. -/
theorem witness_dec_example : ∃ s : State, s.wb.readByte 0 = .ok 0x01#8 ∧ ∀ k, 1 ≤ k → k ≤ 21 → s.wb.readByte k = .ok 0x00#8 := by
  have h : ∀ k : Fin 22, 1 ≤ k.val → (launched (0x01#8 :: List.replicate 21 0x00#8) []).wb.readByte k.val = .ok 0x00#8 := by decide
  exact ⟨launched (0x01#8 :: List.replicate 21 0x00#8) [], by decide, fun k h1 h2 => h ⟨k, by omega⟩ h1⟩

/-- A buffer of 22 bytes whose last byte has no value. -/
theorem witness_byte_without_value : ∃ s : State, 22 ≤ s.wb.len ∧ s.wb.readByte 21 = .error .byteWithoutValue :=
  ⟨{ s22 with wb := { s22.wb with mem := s22.wb.mem.dropLast } }, by decide⟩

/-- Each operation goes on from `s22`, on both sides of the guard. -/
theorem witness_enc_goes_on : (∃ t, exec (.enc 21) s22 = .next t) ∧ ∃ t, exec (.enc 22) s22 = .next t := by
  constructor
  · obtain ⟨t, h, -⟩ := exists_of_nextWith (p := fun _ => true) (o := exec (.enc 21) s22) (by decide)
    exact ⟨t, h⟩
  · obtain ⟨t, h, -⟩ := exists_of_nextWith (p := fun _ => true) (o := exec (.enc 22) s22) (by decide)
    exact ⟨t, h⟩

theorem witness_dec_goes_on : (∃ t, exec (.dec 21) s22 = .next t) ∧
    ∃ t, exec (.dec 22) s22 = .next t ∧ t.res = s22.res ++ [Status.ok] := by
  constructor
  · obtain ⟨t, h, -⟩ := exists_of_nextWith (p := fun _ => true) (o := exec (.dec 21) s22) (by decide)
    exact ⟨t, h⟩
  · obtain ⟨t, h, hp⟩ := exists_of_nextWith (p := fun t => decide (t.res = s22.res ++ [Status.ok])) (o := exec (.dec 22) s22)
      (by decide)
    exact ⟨t, h, by simpa using hp⟩

/-- After a failed `ENC 21` from `s22`, what `DEC 22` did before it is a next state, and a fault and a refusal occur too. -/
theorem witness_not_sticky : (Instr.enc 21).len.toNat < 22 ∧ (∃ t, exec (.enc 21) s22 = .next t) ∧
    (∃ u, exec (.dec 22) s22 = .next u) ∧ exec (.enc 23) s22 = .refused .lenBeyondBuffer :=
  ⟨by decide, witness_enc_goes_on.1, ⟨_, witness_dec_goes_on.2.choose_spec.1⟩, rfl⟩

/-- Both port cases of each unit: data on a success, none on a failure. -/
theorem witness_ports : (∃ img, (encUnit setE6 22).wire = some img) ∧ (encUnit setE6 21).we = false ∧
    (∃ cs, (decUnit 0 (Vector.replicate 22 0x5A#8) 22).ch = some cs) ∧
    (decUnit 0 (Vector.replicate 22 0x5A#8) 21).valid = false :=
  ⟨⟨imageOfSet setE6, by simp [encUnit, encOp, lenOk]⟩, by decide,
    ⟨setOfImage 0 (Vector.replicate 22 0x5A#8), by simp [decUnit, decOp, lenOk]⟩, by decide⟩

/-- A place of byte 6 that is a place of lane 5, at the ends of both: bit 7 of byte 6 is bit 0 of channel 5. -/
theorem witness_byte_and_lane_bit : 8 * (6 : Fin 22).val + (7 : Fin 8).val = 11 * (5 : Fin 16).val + (0 : Fin 11).val := by decide

/-- A one-bit run and an eight-bit run of the layout table, each at its last bit. -/
theorem witness_layout_rows : (⟨2, 10, 10, 4, 0, 0⟩ : Segment) ∈ layoutTable ∧ (⟨5, 8, 1, 7, 7, 0⟩ : Segment) ∈ layoutTable ∧
    0 ≤ 10 - 10 ∧ 7 ≤ 8 - 1 := by decide

/-- Bit 11 and up of a slot that holds 2047. -/
theorem witness_high_bit : 11 ≤ 11 ∧ (0x7FF#16).getLsbD 11 = false := by decide

/-- Two sets of channels where the second starts at the first's channel 8, and two images where the second starts at byte 11. -/
theorem witness_period : (∃ ch ch' : Channels, ∀ i : Fin 8, ch'[i.val] = ch[i.val + 8]) ∧
    ∃ img img' : WireImage, ∀ k : Fin 11, img'[k.val] = img[k.val + 11] :=
  ⟨⟨Vector.replicate 16 5#11, Vector.replicate 16 5#11, by simp⟩, Vector.replicate 22 5#8, Vector.replicate 22 5#8, by simp⟩

/-- A ChannelSet whose packed slots are at most 2047, two of them at the bound. -/
theorem witness_reduced : ∃ cs : ChannelSet, (∀ i : Fin 16, (cs[packedSlot i]).toNat ≤ 2047) ∧ (cs[packedSlot 15]).toNat = 2047 :=
  ⟨Vector.replicate 18 0x7FF#16, by decide⟩

/-- Two images that decode to the same packed slots (the one image, as the statement says), and two that do not. -/
theorem witness_images : (Vector.replicate 22 0x5A#8 : WireImage) ≠ Vector.replicate 22 0x5B#8 ∧
    ∀ i : Fin 16, (setOfImage 0 (Vector.replicate 22 0x5A#8))[packedSlot i] =
      (setOfImage 0 (Vector.replicate 22 0x5A#8))[packedSlot i] :=
  ⟨by decide, fun _ => rfl⟩

/-- Two ChannelSets that agree on every packed slot but slot 5 and differ there, with places just outside lane 5 and at its ends. -/
theorem witness_one_lane_differs : ∃ cs cs' : ChannelSet, (∀ n : Fin 16, n ≠ 5 → cs[packedSlot n] = cs'[packedSlot n]) ∧
    cs[packedSlot 5] ≠ cs'[packedSlot 5] ∧ (54 < 11 * 5 ∧ 55 = 11 * 5 + 0 ∧ 65 = 11 * 5 + 10 ∧ 11 * 5 + 11 ≤ 66) ∧
    (imageOfSet cs)[(7 : Fin 22)] ≠ (imageOfSet cs')[(7 : Fin 22)] :=
  ⟨Vector.replicate 18 172#16, (Vector.replicate 18 172#16).set 5 1877#16, by decide⟩

/-- Two different ChannelSets with the same low bits, two lengths on one side of 22 at its boundary, and two states from which ENC
goes on. -/
theorem witness_same_low_bits : sameLowBits setE6 setE6Masked ∧
    setE6 ≠ setE6Masked ∧ (22 ≤ (22#8).toNat ↔ 22 ≤ (255#8).toNat) ∧
    (22 ≤ (0#8).toNat ↔ 22 ≤ (21#8).toNat) ∧
    (∃ t, exec (.enc 22) { s22 with cs := setE6Masked } = .next t) := by
  refine ⟨by unfold sameLowBits; decide, by decide, by decide, by decide, ?_⟩
  obtain ⟨t, h, -⟩ := exists_of_nextWith (p := fun _ => true)
    (o := exec (.enc 22) { s22 with cs := setE6Masked }) (by decide)
  exact ⟨t, h⟩

/-- Two states that differ beyond byte 21 and in `CS` and have the same bytes 0 to 21: from both DEC goes on. -/
theorem witness_same_image : (∀ k, k < 22 → s22.wb.readByte k =
      ({ launched (List.replicate 24 0x5A#8) [] with cs := Vector.replicate 18 1#16 } : State).wb.readByte k) ∧
    ∃ t, exec (.dec 22) { launched (List.replicate 24 0x5A#8) [] with cs := Vector.replicate 18 1#16 } = .next t := by
  have h : ∀ k : Fin 22, s22.wb.readByte k.val = (launched (List.replicate 24 0x5A#8) []).wb.readByte k.val := by decide
  refine ⟨fun k hk => h ⟨k, hk⟩, ?_⟩
  obtain ⟨t, ht, -⟩ := exists_of_nextWith (p := fun _ => true)
    (o := exec (.dec 22) { launched (List.replicate 24 0x5A#8) [] with cs := Vector.replicate 18 1#16 }) (by decide)
  exact ⟨t, ht⟩

/-- The state right after reset is good and its memory is in canonical form; so is a launched state with a short command left, whose
step goes on. -/
theorem witness_good_states : State.reset.good ∧ State.reset.wb.mem.wf = true ∧
    (launched (List.replicate 22 0x5A#8) [0x02A#9, 0x02B#9]).good ∧
    (∀ w ∈ (launched (List.replicate 22 0x5A#8) [0x02A#9, 0x02B#9]).prog.drop 0, (decodeCommand w).len.toNat < 22) ∧
    ∃ t, step (launched (List.replicate 22 0x5A#8) [0x02A#9, 0x02B#9]) = .next t := by
  refine ⟨by decide, by decide, by decide, by decide, ?_⟩
  obtain ⟨t, h, -⟩ := exists_of_nextWith (p := fun _ => true)
    (o := step (launched (List.replicate 22 0x5A#8) [0x02A#9, 0x02B#9])) (by decide)
  exact ⟨t, h⟩

/-- A good state that has ended and one that has not, with fewer steps than commands left. -/
theorem witness_ended : s22.good ∧ s22.ended = true ∧ (launched (List.replicate 22 0x5A#8) [0x02C#9]).ended = false ∧
    0 < (launched (List.replicate 22 0x5A#8) [0x02C#9]).prog.length - 0 := by decide

/-- A program that fits 22 bytes exactly and one that does not by one. -/
theorem witness_launch : (∀ w ∈ [0x02C#9, 0x02D#9], (decodeCommand w).len.toNat ≤ (List.replicate 22 0x5A#8).length) ∧
    (List.replicate 22 0x5A#8).length < (decodeCommand 0x02E#9).len.toNat := by decide

/-- A bench of two sets and two buffers. -/
def bench : Bench := { sets := [setE6, Vector.replicate 18 1#16], bufs := [s22.wb, s22.wb] }

/-- Whether activities complete, with the given status codes. -/
def doneWith (sts : List Status) : Host.Outcome (Bench × List Status) Fault Refusal → Bool
  | .next (_, r) => decide (r = sts)
  | _ => false

theorem exists_of_doneWith {sts : List Status} {o : Host.Outcome (Bench × List Status) Fault Refusal}
    (h : doneWith sts o = true) : ∃ w, o = .next (w, sts) := by
  cases o with
  | next p => exact ⟨p.1, by simp only [doneWith, decide_eq_true_eq] at h; rw [← h]⟩
  | fault f => simp [doneWith] at h
  | refused r => simp [doneWith] at h

/-- ENC on set 0 and buffer 0 and DEC on set 1 and buffer 1 share nothing, and each completes. -/
theorem witness_independent :
    overlap (.operation (.enc 22) 0 0) (.operation (.dec 22) 1 1) = false ∧
    (∃ w, activate (.operation (.enc 22) 0 0) bench = .next (w, [.ok])) ∧
    ∃ w, activate (.operation (.dec 22) 1 1) bench = .next (w, [.ok]) :=
  ⟨by decide, exists_of_doneWith (by decide), exists_of_doneWith (by decide)⟩

/-- An ENC into the buffer of a DEC overlaps it also where the DEC fails, and two ENCs of one set into two buffers do not overlap. -/
theorem witness_overlap : overlap (.operation (.enc 22) 0 0) (.operation (.dec 21) 1 0) = true ∧ (0 : Nat) ≠ 1 ∧
    overlap (.operation (.enc 22) 0 0) (.operation (.enc 22) 0 1) = false := by decide

/-- R52: two ENCs into one buffer, one of which fails, and an ENC into the buffer of a failing DEC, are refused. -/
theorem test_failing_operations_overlap :
    (together [.operation (.enc 22) 0 0, .operation (.enc 21) 1 0] bench = .refused .overlappingUse) ∧
    together [.operation (.enc 22) 0 0, .operation (.dec 21) 1 0] bench = .refused .overlappingUse := ⟨rfl, rfl⟩

/-- The operands of the full-duplex statement, with lengths on both sides of 22. -/
theorem witness_duplex : (0 : Nat) ≠ 1 ∧ bench.sets[0]? = some setE6 ∧ bench.bufs[0]? = some s22.wb ∧
    bench.sets[1]? = some (Vector.replicate 18 1#16) ∧ bench.bufs[1]? = some s22.wb ∧
    (21#8).toNat ≤ s22.wb.len ∧ (22#8).toNat ≤ s22.wb.len := by decide

/-- The least number that is no length, and the text of the greatest length. -/
theorem witness_lengths : 256 ≤ 256 ∧ Nat.toDigits 10 256 = ['2', '5', '6'] ∧ Nat.toDigits 16 256 = ['1', '0', '0'] ∧
    assembleLine ['D', 'E', 'C', ' ', '0', 'x', 'F', 'F'] = .ok (some (.dec 255)) := by decide

end Sys2Proof.Tests
end

/-! # The bit stream: byte order and lane order (20_memory.md section 1)

`imageBit` and `channelBit` pick a bit by dividing its place by 8 or by 11; each is here tied to the same place of the stream as a
number (`streamOfImage`, `streamOfChannels`). R41 and R42, and that packing carries the stream over, are then uses of those ties. -/

namespace Sys2Proof.Machine

/-- The stream of 22 bytes as the little-endian number that R41 writes, with powers of two in place of shifts. -/
theorem streamOfImage_eq_sum_mul (img : WireImage) :
    streamOfImage img = ∑ k : Fin 22, img[k].toNat * 2 ^ (8 * k.val) := by
  simp only [streamOfImage, Nat.shiftLeft_eq]

/-- The stream of 16 channels as the sum that R42 writes, with powers of two in place of shifts. -/
theorem streamOfChannels_eq_sum_mul (ch : Channels) :
    streamOfChannels ch = ∑ i : Fin 16, ch[i].toNat * 2 ^ (11 * i.val) := by
  simp only [streamOfChannels, Nat.shiftLeft_eq]

/-- The 22 bytes hold the stream, at every one of its 176 places. -/
theorem imageBit_eq_testBit (img : WireImage) (j : Fin 176) : imageBit img j = (streamOfImage img).testBit j.val := by
  have hbyte : j.val / 8 < 22 := by omega
  rw [streamOfImage_testBit, dif_pos hbyte, imageBit]

/-- The 16 channels hold the stream, at every one of its 176 places. -/
theorem channelBit_eq_testBit (ch : Channels) (j : Fin 176) : channelBit ch j = (streamOfChannels ch).testBit j.val := by
  have hlane : j.val / 11 < 16 := by omega
  rw [streamOfChannels_testBit, dif_pos hlane, channelBit]

/-- Bit `b` of byte `k` stands at place `8k+b` (R41). -/
theorem imageBit_byte_place (img : WireImage) (k : Fin 22) (b : Fin 8) :
    imageBit img ⟨8 * k.val + b.val, by omega⟩ = img[k].getLsbD b.val := by
  have hbyte : (8 * k.val + b.val) / 8 = k.val := by omega
  have hbit : (8 * k.val + b.val) % 8 = b.val := by omega
  simp only [imageBit, hbyte, hbit, Fin.getElem_fin]

/-- Bit `t` of channel `i` stands at place `11i+t` (R42). -/
theorem channelBit_lane_place (ch : Channels) (i : Fin 16) (t : Fin 11) :
    channelBit ch ⟨11 * i.val + t.val, by omega⟩ = ch[i].getLsbD t.val := by
  have hlane : (11 * i.val + t.val) / 11 = i.val := by omega
  have hbit : (11 * i.val + t.val) % 11 = t.val := by omega
  simp only [channelBit, hlane, hbit, Fin.getElem_fin]

/-- Packing carries the stream over: the bytes have at each place the bit that the channels have there (R42, R83). -/
theorem imageBit_packChannels (ch : Channels) (j : Fin 176) : imageBit (packChannels ch) j = channelBit ch j := by
  have hbit : j.val % 8 < 8 := Nat.mod_lt _ (by decide)
  calc imageBit (packChannels ch) j
      = (byteOfStream (streamOfChannels ch) ⟨j.val / 8, by omega⟩).getLsbD (j.val % 8) := by
        rw [imageBit, packChannels_getElem]
    _ = (streamOfChannels ch).testBit (8 * (j.val / 8) + j.val % 8) := by
        rw [byteOfStream_getLsbD, decide_eq_true hbit, Bool.true_and]
    _ = channelBit ch j := by rw [Nat.div_add_mod, channelBit_eq_testBit]

/-- Settles O22: the place of a byte's bit, and the tie of `imageBit` to the little-endian number. -/
theorem byteOrderOfTheStream : Obligations.ByteOrderOfTheStream := by
  intro img
  refine ⟨fun k b => (imageBit_byte_place img k b).symm, fun j => ?_⟩
  rw [imageBit_eq_testBit, streamOfImage_eq_sum_mul]

/-- Settles O23: the place of a channel's bit, the tie of `channelBit` to the sum of the lanes, and that packing keeps the stream. -/
theorem laneOrderOfTheStream : Obligations.LaneOrderOfTheStream := by
  intro ch
  refine ⟨fun i t => (channelBit_lane_place ch i t).symm, fun j => ?_, imageBit_packChannels ch⟩
  rw [channelBit_eq_testBit, streamOfChannels_eq_sum_mul]
  rfl -- the statement writes `ch.get i` for `ch[i]`

end Sys2Proof.Machine

/-! # Operation encoding and status codes (30_encoding.md)

A command word is `len` above the one bit `op`, and that bit is all the opcode map's mask looks at. A status is `statusOf` of the
operation, at the ports and in `RES` alike, so its code is looked at once. -/

namespace Sys2Proof

/-- A command word as a number (R60). -/
theorem encode_toNat (i : Instr) : (encode i).toNat = i.len.toNat * 2 + i.op.toNat := by
  rw [encode, BitVec.toNat_append, ← Nat.shiftLeft_add_eq_or_of_lt i.op.isLt, Nat.shiftLeft_eq]

/-- The mask of the opcode map keeps the field `op` and nothing else (R65). -/
theorem and_one_eq_opField (w : CommandWord) : w &&& 0x001#9 = (opField w).setWidth 9 := by
  ext j hj
  cases j with
  | zero => simp [opField]
  | succ j => simp [opField]

theorem and_one_eq_zero_iff (w : CommandWord) : w &&& 0x001#9 = 0x000#9 ↔ opField w = 0#1 := by
  rw [and_one_eq_opField]
  rcases BitVec.eq_zero_or_eq_one (opField w) with h | h <;> rw [h] <;> decide

theorem and_one_eq_one_iff (w : CommandWord) : w &&& 0x001#9 = 0x001#9 ↔ opField w = 1#1 := by
  rw [and_one_eq_opField]
  rcases BitVec.eq_zero_or_eq_one (opField w) with h | h <;> rw [h] <;> decide

/-- `op` = 0 is ENC (R61). -/
theorem decodeCommand_of_opField_zero {w : CommandWord} (h : opField w = 0#1) : decodeCommand w = .enc (lenField w) := by
  rw [decodeCommand, if_pos h]

/-- `op` = 1 is DEC (R61). -/
theorem decodeCommand_of_opField_one {w : CommandWord} (h : opField w = 1#1) : decodeCommand w = .dec (lenField w) := by
  rw [decodeCommand, if_neg (by simp [h])]

/-- Of the two rows of the opcode map a word is accepted by the one of the operation it decodes to, and not by the other. -/
theorem opcodeTable_filter_accepts (w : CommandWord) :
    (opcodeTable.filter fun r => r.accepts w).map OpcodeRow.mnemonic = [(decodeCommand w).mnemonic] := by
  rcases BitVec.eq_zero_or_eq_one (opField w) with h | h
  · rw [decodeCommand_of_opField_zero h]
    simp [opcodeTable, OpcodeRow.accepts, and_one_eq_zero_iff, and_one_eq_one_iff, h, Instr.mnemonic]
  · rw [decodeCommand_of_opField_one h]
    simp [opcodeTable, OpcodeRow.accepts, and_one_eq_zero_iff, and_one_eq_one_iff, h, Instr.mnemonic]

/-- Settles O1: the number of a word from its two fields, its range from theirs, and the fields read back. -/
theorem commandWordIsTwiceLenPlusOp : Obligations.CommandWordIsTwiceLenPlusOp := by
  intro i
  obtain ⟨hlen, hop⟩ := Laws.EncodedFields.of_instr i
  refine ⟨encode_toNat i, Nat.le_of_lt_succ (encode i).isLt, hlen, ?_⟩
  cases i with
  | enc len => exact hop
  | dec len => exact hop

/-- Settles O2: by the value of the bit `op`. -/
theorem everyWordIsExactlyOneOperation : Obligations.EveryWordIsExactlyOneOperation := by
  intro w
  rw [and_one_eq_zero_iff, and_one_eq_one_iff]
  exact ⟨opcodeTable_filter_accepts w, decodeCommand_of_opField_zero, decodeCommand_of_opField_one,
    BitVec.eq_zero_or_eq_one (opField w)⟩

end Sys2Proof

namespace Sys2Proof.Machine

@[simp] theorem Status.code_ok : Status.ok.code = 0#2 := rfl
@[simp] theorem Status.code_tooSmall : Status.tooSmall.code = 1#2 := rfl
@[simp] theorem Status.code_tooShort : Status.tooShort.code = 2#2 := rfl

/-- Code 3 is never produced (R64, R66). -/
theorem Status.code_ne_three (st : Status) : st.code ≠ 3#2 := by cases st <;> decide

/-- The status of an operation by the side of 22 its length is on. -/
theorem statusOf_short (i : Instr) (h : i.len.toNat < 22) : statusOf i = (errorOf i).status := by
  simp [statusOf, h]

theorem statusOf_long (i : Instr) (h : 22 ≤ i.len.toNat) : statusOf i = .ok := by
  simp [statusOf, h]

/-- An operation's code: 0 on success, else the code of its own unit's error. -/
theorem statusOf_code (i : Instr) : (statusOf i).code = if i.len.toNat < 22 then (errorOf i).status.code else 0#2 := by
  split
  next h => rw [statusOf_short i h]
  next h => rw [statusOf_long i (Nat.le_of_not_lt h), Status.code_ok]

/-- ENC's port reports the operation's status, whatever the ChannelSet holds (R81). -/
theorem encUnit_status (cs : ChannelSet) (len : Len) : (encUnit cs len).status = statusOf (.enc len) := by
  rcases Nat.lt_or_ge len.toNat 22 with h | h
  · rw [statusOf_short (.enc len) h, encUnit, encOp_short cs h, errorOf_enc]
  · rw [statusOf_long (.enc len) h, encUnit, encOp_long cs h]

/-- DEC's port reports the operation's status, whatever the bytes hold (R101). -/
theorem decUnit_status (d : Slot) (b : WireImage) (len : Len) : (decUnit d b len).status = statusOf (.dec len) := by
  rcases Nat.lt_or_ge len.toNat 22 with h | h
  · rw [statusOf_short (.dec len) h, decUnit, decOp_short d b h, errorOf_dec]
  · rw [statusOf_long (.dec len) h, decUnit, decOp_long d b h]

/-- An operation that goes on appends its status to `RES` (R30). -/
theorem exec_next_res {i : Instr} {s t : State} (h : exec i s = .next t) : t.res = s.res ++ [statusOf i] := by
  cases i with
  | enc len =>
    obtain ⟨-, ⟨hl, rfl⟩ | ⟨hl, wb, -, rfl⟩⟩ := execEnc_next h
    · rw [statusOf_short (.enc len) hl, State.takeError_res, errorOf_enc]
    · rw [statusOf_long (.enc len) hl, State.finishEnc_res]
  | dec len =>
    obtain ⟨-, ⟨hl, rfl⟩ | ⟨hl, img, -, rfl⟩⟩ := execDec_next h
    · rw [statusOf_short (.dec len) hl, State.takeError_res, errorOf_dec]
    · rw [statusOf_long (.dec len) hl, State.finishDec_res]

/-- Settles O17: the ports and `RES` carry `statusOf`, whose code is `statusOf_code`. -/
theorem statusCodesAreZeroOneTwo : Obligations.StatusCodesAreZeroOneTwo := by
  refine ⟨⟨Status.code_ok, Status.code_tooSmall, Status.code_tooShort⟩, Status.code_ne_three, fun cs len => ?_,
    fun d b len => ?_, fun i s t h => ⟨statusOf i, exec_next_res h, ?_⟩⟩
  · rw [encUnit_status]
    exact statusOf_code (.enc len)
  · rw [decUnit_status]
    exact statusOf_code (.dec len)
  · cases i with
    | enc len => exact statusOf_code (.enc len)
    | dec len => exact statusOf_code (.dec len)

end Sys2Proof.Machine

/-! # Masking and the packed image (40_encode.md section 2; 42_codec_laws.md section 3)

The stream is the sum, and equally the OR, of the shifted lanes, and the image is that number cut in bytes. ENC in the harness commits
the image, so what it writes and what it depends on are facts about the image and about `commitImage`. -/

namespace Sys2Proof.Machine

/-! ## Masking (R82) -/

theorem and_mask_toNat (v : Slot) : (v &&& 0x7FF#16).toNat = v.toNat % 2048 := by
  rw [BitVec.toNat_and]
  exact Nat.and_two_pow_sub_one_eq_mod v.toNat 11

/-- The mask alone already clears bits 15:11, so keeping 11 bits of the result loses nothing. -/
theorem maskSlot_toNat (v : Slot) : (maskSlot v).toNat = (v &&& 0x7FF#16).toNat := by
  rw [maskSlot, BitVec.toNat_setWidth, and_mask_toNat, Nat.mod_mod]

theorem maskSlot_eq_extractLsb' (v : Slot) : maskSlot v = v.extractLsb' 0 11 := by
  refine BitVec.eq_of_getLsbD_eq fun t ht => ?_
  rw [maskSlot_getLsbD, BitVec.getLsbD_extractLsb', Nat.zero_add]

/-- ENC reads the same 16 channels of two ChannelSets with the same low bits (R86). -/
theorem channelsOfSet_congr {cs cs' : ChannelSet} (h : sameLowBits cs cs') : channelsOfSet cs = channelsOfSet cs' := by
  rw [channelsOfSet, channelsOfSet]
  congr 1
  funext i
  rw [maskSlot, maskSlot, h i]

theorem imageOfSet_congr {cs cs' : ChannelSet} (h : sameLowBits cs cs') : imageOfSet cs = imageOfSet cs' := by
  rw [imageOfSet, imageOfSet, channelsOfSet_congr h]

theorem sameLowBits_map_mask (cs : ChannelSet) : sameLowBits cs (cs.map fun v => v &&& 0x7FF#16) := by
  intro i
  rw [Fin.getElem_fin, Fin.getElem_fin, Vector.getElem_map, BitVec.and_assoc, BitVec.and_self]

/-- Settles O26: the mask as a number and as bits 10:0, and that masking the slots beforehand changes no byte. -/
theorem maskKeepsTheLow11Bits : Obligations.MaskKeepsTheLow11Bits := by
  refine ⟨fun v => ⟨maskSlot_toNat v, (maskSlot_toNat v).trans (and_mask_toNat v), maskSlot_eq_extractLsb' v⟩,
    by decide, fun cs len hl => ?_⟩
  rw [encOp_long cs hl, imageOfSet_congr (sameLowBits_map_mask cs)]

/-! ## The stream as a number (R80, R83) -/

/-- The number `A` as R80 writes it. -/
theorem streamOfChannels_channelsOfSet (cs : ChannelSet) : streamOfChannels (channelsOfSet cs) =
    ∑ i : Fin 16, (cs[packedSlot i] &&& 0x7FF#16).toNat <<< (11 * i.val) := by
  simp only [streamOfChannels, Fin.getElem_fin, channelsOfSet_getElem, maskSlot_toNat, packedSlot_val]

theorem streamOfChannels_lt (ch : Channels) : streamOfChannels ch < 2 ^ 176 :=
  sum_shift_lt 11 16 (fun i => ch[i].toNat) fun i => ch[i].isLt

theorem byteOfStream_toNat (a : Nat) (k : Fin 22) : (byteOfStream a k).toNat = a / 2 ^ (8 * k.val) % 2 ^ 8 := by
  have hmask : (a >>> (8 * k.val)) &&& 0xFF = a >>> (8 * k.val) % 2 ^ 8 := Nat.and_two_pow_sub_one_eq_mod _ 8
  rw [byteOfStream, hmask, BitVec.toNat_ofNat, Nat.mod_mod, Nat.shiftRight_eq_div_pow]

@[simp] theorem imageOfSet_getElem (cs : ChannelSet) (k : Nat) (h : k < 22) :
    (imageOfSet cs)[k] = byteOfStream (streamOfChannels (channelsOfSet cs)) ⟨k, h⟩ :=
  packChannels_getElem (channelsOfSet cs) k h

/-- Fields placed side by side do not meet, so their sum is their OR. -/
theorem sum_shift_eq_foldl_or (w n : Nat) (f : Fin n → Nat) (hf : ∀ i, f i < 2 ^ w) :
    ∑ i : Fin n, f i <<< (w * i.val) = (List.finRange n).foldl (fun a i => a ||| f i <<< (w * i.val)) 0 := by
  induction n with
  | zero => rfl
  | succ n ih =>
    have hlow : ∑ i : Fin n, f i.castSucc <<< (w * i.val) < 2 ^ (w * n) := sum_shift_lt w n _ fun i => hf _
    rw [Fin.sum_univ_castSucc, List.finRange_succ_last, List.foldl_append, List.foldl_map, List.foldl_cons, List.foldl_nil]
    simp only [Fin.val_castSucc, Fin.val_last]
    rw [← ih _ fun i => hf i.castSucc, Nat.add_comm, Nat.shiftLeft_add_eq_or_of_lt hlow, Nat.or_comm]

/-- Settles O27: the bound and the OR from the lanes lying side by side, the bytes as numbers, and the bits from
`imageBit_packChannels`. -/
theorem packedImageIsTheStreamCutInBytes : Obligations.PackedImageIsTheStreamCutInBytes := by
  intro cs
  refine ⟨streamOfChannels_lt _, fun k => ?_, fun j => ?_, ?_⟩
  · rw [Fin.getElem_fin, imageOfSet_getElem, byteOfStream_toNat]
  · rw [imageOfSet, imageBit_packChannels, channelBit, channelsOfSet_getElem]
  · have hor := sum_shift_eq_foldl_or 11 16 (fun i => (channelsOfSet cs)[i].toNat) fun i => (channelsOfSet cs)[i].isLt
    simpa only [streamOfChannels, Fin.getElem_fin, channelsOfSet_getElem, packedSlot_val] using hor

/-! ## ENC in the harness (R80, R81, R86, R87) -/

/-- Below 22, ENC takes its error. -/
theorem exec_enc_short {len : Len} {s : State} (hfit : len.toNat ≤ s.wb.len) (hl : len.toNat < 22) :
    exec (.enc len) s = .next (s.takeError .bufferTooSmall) := by
  rw [exec_enc, execEnc, if_pos ((Instr.fits_iff _ _).2 hfit), encOp_short s.cs hl]

/-- From 22 on, ENC commits the image. -/
theorem exec_enc_long {len : Len} {s : State} (hfit : len.toNat ≤ s.wb.len) (hl : 22 ≤ len.toNat) :
    ∃ wb, s.wb.commitImage (imageOfSet s.cs) = .ok wb ∧ exec (.enc len) s = .next (s.finishEnc wb) := by
  obtain ⟨wb, hcommit⟩ := WireBuffer.commitImage_of_le (le_trans hl hfit) (imageOfSet s.cs)
  refine ⟨wb, hcommit, ?_⟩
  rw [exec_enc, execEnc, if_pos ((Instr.fits_iff _ _).2 hfit), encOp_long s.cs hl]
  simp only [hcommit]

/-- What an ENC that goes on does to the buffer, by the side of 22 its length is on. -/
theorem exec_enc_next_wb {len : Len} {s t : State} (h : exec (.enc len) s = .next t) :
    (len.toNat < 22 → t.wb = s.wb) ∧ (22 ≤ len.toNat → s.wb.commitImage (imageOfSet s.cs) = .ok t.wb) := by
  obtain ⟨-, ⟨hl, rfl⟩ | ⟨hl, wb, hcommit, rfl⟩⟩ := execEnc_next h
  · exact ⟨fun _ => State.takeError_wb s _, fun hge => absurd hl (Nat.not_lt.2 hge)⟩
  · exact ⟨fun hlt => absurd hlt (Nat.not_lt.2 hl), fun _ => hcommit⟩

/-- What an ENC that goes on leaves alone, at every length. -/
theorem exec_enc_next_frame {len : Len} {s t : State} (h : exec (.enc len) s = .next t) :
    t.cs = s.cs ∧ t.prog = s.prog ∧ t.idx = s.idx + 1 ∧ t.wb.len = s.wb.len := by
  obtain ⟨-, ⟨-, rfl⟩ | ⟨-, wb, hcommit, rfl⟩⟩ := execEnc_next h
  · exact ⟨rfl, rfl, rfl, rfl⟩
  · obtain ⟨-, hlen, -⟩ := WireBuffer.commitImage_ok hcommit
    exact ⟨rfl, rfl, rfl, hlen⟩

/-- Bytes 0 to 21 after a success, and every byte beyond. -/
theorem exec_enc_next_bytes {len : Len} {s t : State} (h : exec (.enc len) s = .next t) (hl : 22 ≤ len.toNat) :
    (∀ k : Fin 22, t.wb.readByte k.val = .ok (imageOfSet s.cs)[k]) ∧
      ∀ a, 22 ≤ a → t.wb.readByte a = s.wb.readByte a := by
  obtain ⟨-, -, himage, hbeyond, -⟩ := WireBuffer.commitImage_ok ((exec_enc_next_wb h).2 hl)
  exact ⟨himage, hbeyond⟩

/-- Settles O13: the frame of an ENC that goes on, on both sides of 22. -/
theorem encWritesBytes0To21AndNothingElse : Obligations.EncWritesBytes0To21AndNothingElse := by
  intro len s t h
  obtain ⟨hcs, hprog, -, hlen⟩ := exec_enc_next_frame h
  exact ⟨hcs, hprog, hlen, exec_enc_next_bytes h, (exec_enc_next_wb h).1⟩

/-- Settles O15: on each side of 22, the ports from `encOp` and the harness from `exec_enc_next_wb` and `exec_enc_long`. -/
theorem encGuardIsLengthBelow22 : Obligations.EncGuardIsLengthBelow22 := by
  intro len
  refine ⟨fun hl => ⟨fun cs => ⟨encOp_short cs hl, ?_, ?_⟩, fun s t h => ⟨(exec_enc_next_wb h).1 hl, ?_⟩⟩,
    fun hl => ⟨fun cs => ⟨?_, ?_⟩, fun s hfit => ?_⟩⟩
  · rw [encUnit, encOp_short cs hl]
  · rw [encUnit_status, statusOf_short (.enc len) hl, errorOf_enc, CodecError.status_bufferTooSmall]
  · rw [exec_next_res h, statusOf_short (.enc len) hl, errorOf_enc, CodecError.status_bufferTooSmall]
  · rw [encUnit, encOp_long cs hl]
  · rw [encUnit_status, statusOf_long (.enc len) hl]
  · obtain ⟨wb, -, hexec⟩ := exec_enc_long hfit hl
    exact ⟨s.finishEnc wb, hexec, State.finishEnc_res s wb⟩

/-- The stream of a set that holds 1 in slot 0 and 0 in the 15 other packed slots, the example of R80. -/
theorem streamOfChannels_of_first_slot_one {cs : ChannelSet} (hone : cs[0] = 1#16)
    (hzero : ∀ i : Fin 16, i ≠ 0 → cs[packedSlot i] = 0#16) : streamOfChannels (channelsOfSet cs) = 1 := by
  have hfirst : cs[packedSlot 0] = 1#16 := hone
  rw [streamOfChannels_channelsOfSet, Finset.sum_eq_single 0]
  · rw [hfirst]; rfl
  · intro i _ hi
    rw [hzero i hi, BitVec.zero_and, BitVec.toNat_zero, Nat.zero_shiftLeft]
  · exact fun h => absurd (Finset.mem_univ _) h

theorem byteOfStream_one_zero : byteOfStream 1 0 = 0x01#8 := rfl

theorem byteOfStream_one_of_pos {k : Fin 22} (hk : 1 ≤ k.val) : byteOfStream 1 k = 0x00#8 := by
  have hlt : 1 < 2 ^ (8 * k.val) := Nat.one_lt_two_pow (by omega)
  rw [byteOfStream, Nat.shiftRight_eq_div_pow, Nat.div_eq_of_lt hlt]
  rfl

/-- Settles O10: the two sides of 22, the command word, and the example, whose stream is the number 1. -/
theorem encCompletesWithThePackedImage : Obligations.EncCompletesWithThePackedImage := by
  refine ⟨fun len s hfit => ⟨exec_enc_short hfit, fun hl => ?_⟩, fun len => encode_toNat (.enc len),
    fun s hL hone hzero => ?_⟩
  · obtain ⟨wb, -, hexec⟩ := exec_enc_long hfit hl
    obtain ⟨hcs, hprog, hidx, hlen⟩ := exec_enc_next_frame hexec
    obtain ⟨himage, hbeyond⟩ := exec_enc_next_bytes hexec hl
    refine ⟨s.finishEnc wb, hexec, hcs, State.finishEnc_res s wb, hidx, hprog, hlen, fun k => ?_, hbeyond⟩
    rw [himage k, Fin.getElem_fin, imageOfSet_getElem, streamOfChannels_channelsOfSet, byteOfStream]
  · have hl : 22 ≤ (22#8 : Len).toNat := by decide
    obtain ⟨wb, -, hexec⟩ := exec_enc_long (len := 22#8) hL hl
    obtain ⟨himage, -⟩ := exec_enc_next_bytes hexec hl
    have hbyte : ∀ k : Fin 22, (s.finishEnc wb).wb.readByte k.val = .ok (byteOfStream 1 k) := fun k => by
      rw [himage k, Fin.getElem_fin, imageOfSet_getElem, streamOfChannels_of_first_slot_one hone hzero]
    refine ⟨s.finishEnc wb, hexec, ?_, State.finishEnc_res s wb, fun k hlo hhi => ?_⟩
    · rw [← byteOfStream_one_zero]
      exact hbyte 0
    · rw [← byteOfStream_one_of_pos (k := ⟨k, by omega⟩) hlo]
      exact hbyte ⟨k, by omega⟩

/-- Settles O42: the statuses agree because the lengths do, the bytes because the images of `imageOfSet_congr` do. -/
theorem encDependsOnLowBitsAlone : Obligations.EncDependsOnLowBitsAlone := by
  intro len s s' t t' hlow h h'
  refine ⟨?_, fun hl k => ?_⟩
  · rw [exec_next_res h, exec_next_res h', List.getLast?_concat, List.getLast?_concat]
  · obtain ⟨himage, -⟩ := exec_enc_next_bytes h hl
    obtain ⟨himage', -⟩ := exec_enc_next_bytes h' hl
    rw [himage k, himage' k, imageOfSet_congr hlow]

end Sys2Proof.Machine

/-! # The image bit by bit, and the other forms of ENC (40_encode.md section 2; 42_codec_laws.md section 3)

Every statement here is read off one fact, `packChannels_getLsbD`: bit `b` of byte `k` is bit `(8k+b) mod 11` of channel
`(8k+b) div 11`. The bit accumulator alone is followed as numbers. -/

namespace Sys2Proof.Machine

/-- Bit `b` of byte `k` is the channel bit at stream place `8k+b` (R43). -/
theorem packChannels_getLsbD (ch : Channels) {k b : Nat} (hk : k < 22) (hb : b < 8) :
    (packChannels ch)[k].getLsbD b = (ch[(8 * k + b) / 11]).getLsbD ((8 * k + b) % 11) :=
  (imageBit_byte_place (packChannels ch) ⟨k, hk⟩ ⟨b, hb⟩).symm.trans (imageBit_packChannels ch ⟨8 * k + b, by omega⟩)

/-- Bit `t` of channel `i` is the byte bit at stream place `11i+t` (R43). -/
theorem unpackImage_getLsbD (img : WireImage) {i t : Nat} (hi : i < 16) (ht : t < 11) :
    (unpackImage img)[i].getLsbD t = (img[(11 * i + t) / 8]).getLsbD ((11 * i + t) % 8) := by
  have hbyte : (11 * i + t) / 8 < 22 := by omega
  rw [unpackImage_getElem, channelOfStream_getLsbD, decide_eq_true ht, Bool.true_and, streamOfImage_testBit, dif_pos hbyte]

/-- A packed slot of a DEC result is the channel with zeros above it (R103). -/
theorem setOfImage_packedSlot (d : Slot) (img : WireImage) (i : Fin 16) :
    (setOfImage d img)[packedSlot i] = (unpackImage img)[i].setWidth 16 := by
  rw [setOfImage, Fin.getElem_fin, widenChannels_getElem]
  exact dif_pos i.isLt

/-! ## Bitwise operations (R131) -/

/-- The operation `g`, given at every width, works on each bit alone, as `f` does on two bits. -/
def ActsBitwise (g : (w : Nat) → BitVec w → BitVec w → BitVec w) (f : Bool → Bool → Bool) : Prop :=
  ∀ (w : Nat) (x y : BitVec w) (n : Nat), (g w x y).getLsbD n = f (x.getLsbD n) (y.getLsbD n)

theorem actsBitwise_or : ActsBitwise (fun _ x y => x ||| y) or := fun _ _ _ _ => BitVec.getLsbD_or

theorem actsBitwise_and : ActsBitwise (fun _ x y => x &&& y) and := fun _ _ _ _ => BitVec.getLsbD_and

theorem actsBitwise_xor : ActsBitwise (fun _ x y => x ^^^ y) Bool.xor := fun _ _ _ _ => BitVec.getLsbD_xor

section
variable {g : (w : Nat) → BitVec w → BitVec w → BitVec w} {f : Bool → Bool → Bool}

theorem maskSlot_bitwise (hg : ActsBitwise g f) (x y : Slot) : maskSlot (g 16 x y) = g 11 (maskSlot x) (maskSlot y) := by
  refine BitVec.eq_of_getLsbD_eq fun t ht => ?_
  rw [hg, maskSlot_getLsbD, maskSlot_getLsbD, maskSlot_getLsbD, hg, decide_eq_true ht]
  simp only [Bool.true_and]

/-- Above the channel both operands have zeros, and the operation makes a zero of them, as it does beyond any width. -/
theorem setWidth_bitwise (hg : ActsBitwise g f) (x y : Channel) :
    (g 11 x y).setWidth 16 = g 16 (x.setWidth 16) (y.setWidth 16) := by
  refine BitVec.eq_of_getLsbD_eq fun t ht => ?_
  rw [hg, BitVec.getLsbD_setWidth, BitVec.getLsbD_setWidth, BitVec.getLsbD_setWidth, hg, decide_eq_true ht]
  simp only [Bool.true_and]

theorem channelsOfSet_bitwise (hg : ActsBitwise g f) (cs d : ChannelSet) :
    channelsOfSet (Vector.zipWith (g 16) cs d) = Vector.zipWith (g 11) (channelsOfSet cs) (channelsOfSet d) := by
  refine Vector.ext fun i hi => ?_
  simp only [channelsOfSet_getElem, Vector.getElem_zipWith, maskSlot_bitwise hg]

theorem packChannels_bitwise (hg : ActsBitwise g f) (ch ch' : Channels) :
    packChannels (Vector.zipWith (g 11) ch ch') = Vector.zipWith (g 8) (packChannels ch) (packChannels ch') := by
  refine Vector.ext fun k hk => BitVec.eq_of_getLsbD_eq fun b hb => ?_
  rw [Vector.getElem_zipWith, hg, packChannels_getLsbD _ hk hb, packChannels_getLsbD _ hk hb, packChannels_getLsbD _ hk hb,
    Vector.getElem_zipWith, hg]

theorem unpackImage_bitwise (hg : ActsBitwise g f) (a b : WireImage) :
    unpackImage (Vector.zipWith (g 8) a b) = Vector.zipWith (g 11) (unpackImage a) (unpackImage b) := by
  refine Vector.ext fun i hi => BitVec.eq_of_getLsbD_eq fun t ht => ?_
  rw [Vector.getElem_zipWith, hg, unpackImage_getLsbD _ hi ht, unpackImage_getLsbD _ hi ht, unpackImage_getLsbD _ hi ht,
    Vector.getElem_zipWith, hg]

theorem imageOfSet_bitwise (hg : ActsBitwise g f) (cs d : ChannelSet) :
    imageOfSet (Vector.zipWith (g 16) cs d) = Vector.zipWith (g 8) (imageOfSet cs) (imageOfSet d) := by
  rw [imageOfSet, channelsOfSet_bitwise hg, packChannels_bitwise hg, imageOfSet, imageOfSet]

theorem setOfImage_bitwise (hg : ActsBitwise g f) (e : Slot) (a b : WireImage) (i : Fin 16) :
    (setOfImage e (Vector.zipWith (g 8) a b))[packedSlot i] =
      g 16 (setOfImage e a)[packedSlot i] (setOfImage e b)[packedSlot i] := by
  rw [setOfImage_packedSlot, setOfImage_packedSlot, setOfImage_packedSlot, unpackImage_bitwise hg, Fin.getElem_fin,
    Vector.getElem_zipWith, setWidth_bitwise hg]
  rfl

end

/-- Settles O41: OR, AND and XOR each work bit by bit, and every operation that does commutes with both units. -/
theorem codecCommutesWithBitwiseOperations : Obligations.CodecCommutesWithBitwiseOperations := by
  refine ⟨fun cs d => ⟨?_, ?_, ?_⟩, fun e a b i => ⟨?_, ?_, ?_⟩⟩
  · exact imageOfSet_bitwise actsBitwise_or cs d
  · exact imageOfSet_bitwise actsBitwise_and cs d
  · exact imageOfSet_bitwise actsBitwise_xor cs d
  · exact setOfImage_bitwise actsBitwise_or e a b i
  · exact setOfImage_bitwise actsBitwise_and e a b i
  · exact setOfImage_bitwise actsBitwise_xor e a b i

/-! ## The unrolled formulas (R84) -/

/-- Every formula of R84 at once: byte `k` starts at bit `8k mod 11` of lane `8k div 11` and, where that leaves it short of 8 bits,
goes on in the next lane. -/
def byteOfLanes (ch : Channels) (k : Fin 22) : Byte :=
  if h : 8 * k.val % 11 ≤ 3 then
    BitVec.ofNat 8 ((ch[8 * k.val / 11].toNat >>> (8 * k.val % 11)) &&& 0xFF)
  else
    BitVec.ofNat 8 (((ch[8 * k.val / 11].toNat >>> (8 * k.val % 11)) |||
      (ch[8 * k.val / 11 + 1].toNat <<< (11 - 8 * k.val % 11))) &&& 0xFF)

/-- The 22 formulas are that one, written out for `k` from 0 to 21. -/
theorem unrolledImage_getElem (ch : Channels) (k : Fin 22) : (unrolledImage ch)[k] = byteOfLanes ch k := by
  fin_cases k <;> rfl

theorem ofNat_and_byteMask_getLsbD (a : Nat) {b : Nat} (hb : b < 8) : (BitVec.ofNat 8 (a &&& 0xFF)).getLsbD b = a.testBit b := by
  have hzero := byteOfStream_getLsbD a 0 b
  simpa [byteOfStream, hb] using hzero

/-- Where a byte's bit `b` falls in the lane that holds its bit 0, or in the next one. -/
theorem place_in_same_lane {p b : Nat} (h : p % 11 + b < 11) : (p + b) / 11 = p / 11 ∧ (p + b) % 11 = p % 11 + b := by
  omega

theorem place_in_next_lane {p b : Nat} (hb : b < 8) (h : 11 ≤ p % 11 + b) :
    (p + b) / 11 = p / 11 + 1 ∧ (p + b) % 11 = b - (11 - p % 11) := by
  omega

theorem byteOfLanes_eq_packChannels (ch : Channels) (k : Fin 22) : byteOfLanes ch k = (packChannels ch)[k] := by
  refine BitVec.eq_of_getLsbD_eq fun b hb => ?_
  rw [Fin.getElem_fin, packChannels_getLsbD ch k.isLt hb, byteOfLanes]
  split
  next hone =>
    obtain ⟨hdiv, hmod⟩ := place_in_same_lane (p := 8 * k.val) (b := b) (by omega)
    rw [ofNat_and_byteMask_getLsbD _ hb, Nat.testBit_shiftRight, BitVec.testBit_toNat]
    simp only [hdiv, hmod]
  next htwo =>
    rw [ofNat_and_byteMask_getLsbD _ hb, Nat.testBit_or, Nat.testBit_shiftRight, Nat.testBit_shiftLeft,
      BitVec.testBit_toNat, BitVec.testBit_toNat]
    rcases Nat.lt_or_ge (8 * k.val % 11 + b) 11 with hsame | hnext
    · obtain ⟨hdiv, hmod⟩ := place_in_same_lane hsame
      have hbelow : ¬ b ≥ 11 - 8 * k.val % 11 := by omega
      simp only [hdiv, hmod, decide_eq_false hbelow, Bool.false_and, Bool.or_false]
    · obtain ⟨hdiv, hmod⟩ := place_in_next_lane hb hnext
      have habove : b ≥ 11 - 8 * k.val % 11 := by omega
      simp only [hdiv, hmod, decide_eq_true habove, BitVec.getLsbD_of_ge _ _ hnext, Bool.true_and, Bool.false_or]

theorem unrolledImage_eq_packChannels (ch : Channels) : unrolledImage ch = packChannels ch :=
  Vector.ext fun k hk => (unrolledImage_getElem ch ⟨k, hk⟩).trans (byteOfLanes_eq_packChannels ch ⟨k, hk⟩)

/-- 11 bytes are 8 lanes, so the layout repeats after them. -/
theorem packChannels_period {ch ch' : Channels} (h : ∀ i : Fin 8, ch'[i.val] = ch[i.val + 8]) (k : Fin 11) :
    (packChannels ch)[k.val + 11] = (packChannels ch')[k.val] := by
  refine BitVec.eq_of_getLsbD_eq fun b hb => ?_
  have hdiv : (8 * (k.val + 11) + b) / 11 = (8 * k.val + b) / 11 + 8 := by omega
  have hmod : (8 * (k.val + 11) + b) % 11 = (8 * k.val + b) % 11 := by omega
  have hlane := h ⟨(8 * k.val + b) / 11, by omega⟩
  rw [packChannels_getLsbD ch (by omega) hb, packChannels_getLsbD ch' (by omega) hb, hlane]
  simp only [hdiv, hmod]

/-- Settles O31: the formulas are `byteOfLanes`, which is the packed byte, and the layout has a period of 11 bytes. -/
theorem unrolledEncFormulasAgree : Obligations.UnrolledEncFormulasAgree :=
  ⟨fun cs => unrolledImage_eq_packChannels (channelsOfSet cs), fun _ _ => packChannels_period⟩

/-! ## The bit accumulator (R85)

The channels still to come lie above the pending bits, so the pending value and they together are one number, of which each turn
emits the low bytes and keeps the rest. At the start that number is the stream. -/

/-- The low `n` bytes of a number, lowest first. -/
def lowBytes (n v : Nat) : List Byte := List.ofFn fun k : Fin n => BitVec.ofNat 8 ((v >>> (8 * k.val)) &&& 0xFF)

theorem imageOfSet_toList (cs : ChannelSet) : (imageOfSet cs).toList = lowBytes 22 (streamOfChannels (channelsOfSet cs)) :=
  Vector.toList_ofFn

theorem lowBytes_zero (v : Nat) : lowBytes 0 v = [] := rfl

theorem lowBytes_succ (n v : Nat) : lowBytes (n + 1) v = BitVec.ofNat 8 (v &&& 0xFF) :: lowBytes n (v >>> 8) := by
  have hshift : ∀ k, v >>> (8 * (k + 1)) = v >>> 8 >>> (8 * k) := fun k => by
    rw [← Nat.shiftRight_add, Nat.mul_succ, Nat.add_comm]
  simp only [lowBytes, List.ofFn_succ, Fin.val_succ, hshift]
  rfl

theorem lowBytes_add (m n v : Nat) : lowBytes (m + n) v = lowBytes m v ++ lowBytes n (v >>> (8 * m)) := by
  induction m generalizing v with
  | zero => rw [Nat.zero_add]; rfl
  | succ m ih =>
    have hlen : m + 1 + n = m + n + 1 := by omega
    rw [hlen, lowBytes_succ, ih, lowBytes_succ, ← Nat.shiftRight_add, Nat.mul_succ, Nat.add_comm 8]
    rfl

/-- Bits above the last byte that is cut do not enter. -/
theorem lowBytes_add_mul (n v u : Nat) : lowBytes n (v + 2 ^ (8 * n) * u) = lowBytes n v := by
  induction n generalizing v with
  | zero => rfl
  | succ n ih =>
    have hpow : 2 ^ (8 * (n + 1)) * u = 2 ^ 8 * (2 ^ (8 * n) * u) := by rw [Nat.mul_succ, Nat.pow_add]; ring
    have hrest : (v + 2 ^ 8 * (2 ^ (8 * n) * u)) >>> 8 = v >>> 8 + 2 ^ (8 * n) * u := by
      rw [Nat.shiftRight_eq_div_pow, Nat.shiftRight_eq_div_pow, Nat.add_mul_div_left _ _ (by decide)]
    have hlow : (v + 2 ^ 8 * (2 ^ (8 * n) * u)) &&& 0xFF = v &&& 0xFF := by
      rw [show (0xFF : Nat) = 2 ^ 8 - 1 from rfl, Nat.and_two_pow_sub_one_eq_mod, Nat.and_two_pow_sub_one_eq_mod,
        Nat.add_mul_mod_self_left]
    rw [lowBytes_succ, lowBytes_succ, hpow, hrest, hlow, ih]

/-- Channels in order as a number, the first lowest (R42). -/
def laneStream : List Channel → Nat
  | [] => 0
  | m :: ms => m.toNat + 2 ^ 11 * laneStream ms

theorem laneStream_ofFn (n : Nat) (f : Fin n → Channel) :
    laneStream (List.ofFn f) = ∑ i : Fin n, (f i).toNat <<< (11 * i.val) := by
  induction n with
  | zero => rfl
  | succ n ih =>
    rw [List.ofFn_succ, laneStream, ih, Fin.sum_univ_succ, Finset.mul_sum]
    congr 1
    refine Finset.sum_congr rfl fun i _ => ?_
    rw [Nat.shiftLeft_eq, Nat.shiftLeft_eq, Fin.val_succ, Nat.mul_succ, Nat.pow_add]
    ring

theorem laneStream_channelsOfSet (cs : ChannelSet) :
    laneStream (channelsOfSet cs).toList = streamOfChannels (channelsOfSet cs) := by
  rw [channelsOfSet, Vector.toList_ofFn, laneStream_ofFn]
  simp [streamOfChannels]

/-- The accumulator between two channels: fewer than 8 bits pending, and nothing above them. -/
structure Accumulator.Drained (a : Accumulator) : Prop where
  cnt_lt : a.cnt < 8
  pend_lt : a.pend < 2 ^ a.cnt

theorem Accumulator.empty_drained : Accumulator.empty.Drained := ⟨by decide, by decide⟩

/-- The pending bits with the channels still to come above them. -/
def Accumulator.ahead (a : Accumulator) (ms : List Channel) : Nat := a.pend + 2 ^ a.cnt * laneStream ms

/-- A pushed field lands above the pending bits, so the OR is a sum. -/
theorem Accumulator.push_pend {a : Accumulator} (hp : a.pend < 2 ^ a.cnt) (field width : Nat) :
    (a.push field width).pend = a.pend + 2 ^ a.cnt * field := by
  rw [Accumulator.push, Nat.or_comm, ← Nat.shiftLeft_add_eq_or_of_lt hp, Nat.shiftLeft_eq, Nat.add_comm, Nat.mul_comm]

theorem Accumulator.push_pend_lt {a : Accumulator} (hp : a.pend < 2 ^ a.cnt) (m : Channel) :
    (a.push m.toNat 11).pend < 2 ^ (a.cnt + 11) := by
  rw [Accumulator.push_pend hp]
  calc a.pend + 2 ^ a.cnt * m.toNat
      < 2 ^ a.cnt + 2 ^ a.cnt * m.toNat := Nat.add_lt_add_right hp _
    _ = 2 ^ a.cnt * (m.toNat + 1) := by ring
    _ ≤ 2 ^ a.cnt * 2 ^ 11 := Nat.mul_le_mul_left _ m.isLt
    _ = 2 ^ (a.cnt + 11) := (Nat.pow_add 2 a.cnt 11).symm

/-- R85's inner loop emits the whole bytes that are pending and keeps the bits above them. -/
theorem emitBytes_eq (fuel : Nat) (a : Accumulator) (h : a.cnt < 8 * (fuel + 1)) :
    emitBytes fuel a =
      ({ pend := a.pend >>> (8 * (a.cnt / 8)), cnt := a.cnt % 8, peak := a.peak }, lowBytes (a.cnt / 8) a.pend) := by
  induction fuel generalizing a with
  | zero => rw [Nat.div_eq_of_lt (by omega), Nat.mod_eq_of_lt (by omega)]; rfl
  | succ fuel ih =>
    rw [emitBytes]
    split
    next hge =>
      have hdiv : a.cnt / 8 = (a.cnt - 8) / 8 + 1 := by omega
      have hmod : (a.cnt - 8) % 8 = a.cnt % 8 := by omega
      have hdrop : (a.drop 8).cnt < 8 * (fuel + 1) := by simp only [Accumulator.drop]; omega
      rw [ih _ hdrop, hdiv, lowBytes_succ, Nat.mul_succ, Nat.add_comm _ 8, Nat.shiftRight_add]
      simp only [Accumulator.drop, hmod]
    next hlt =>
      rw [Nat.div_eq_of_lt (by omega), Nat.mod_eq_of_lt (by omega)]
      rfl

/-- After a push, the bits pending with the channels still to come are the number from before it. -/
theorem Accumulator.push_ahead {a : Accumulator} (hp : a.pend < 2 ^ a.cnt) (m : Channel) (ms : List Channel) :
    (a.push m.toNat 11).ahead ms = a.ahead (m :: ms) := by
  rw [Accumulator.ahead, Accumulator.push_pend hp, Accumulator.ahead, laneStream, Accumulator.push, Nat.pow_add]
  ring

/-- The whole bytes below place `c`, taken apart from the bits left over. -/
theorem two_pow_mul_split (c u : Nat) : 2 ^ c * u = 2 ^ (8 * (c / 8)) * (2 ^ (c % 8) * u) := by
  rw [← Nat.mul_assoc, ← Nat.pow_add, Nat.div_add_mod]

/-- Emptying whole bytes out of `p`, below a multiple of `2^c`, empties them out of the sum. -/
theorem shiftRight_whole_bytes (p c u : Nat) :
    p >>> (8 * (c / 8)) + 2 ^ (c % 8) * u = (p + 2 ^ c * u) >>> (8 * (c / 8)) := by
  rw [two_pow_mul_split c u, Nat.shiftRight_eq_div_pow, Nat.shiftRight_eq_div_pow, Nat.add_mul_div_left _ _ (Nat.two_pow_pos _)]

theorem lowBytes_whole_bytes (p c u : Nat) : lowBytes (c / 8) p = lowBytes (c / 8) (p + 2 ^ c * u) := by
  rw [two_pow_mul_split c u, lowBytes_add_mul]

/-- One turn of R85's outer loop: it emits the low bytes of what lies ahead, keeps the rest, drains the accumulator, and on the way
holds 18 bits at most. -/
theorem emitBytes_push {a : Accumulator} (ha : a.Drained) (m : Channel) (ms : List Channel) :
    (emitBytes 3 (a.push m.toNat 11)).2 = lowBytes ((a.cnt + 11) / 8) (a.ahead (m :: ms)) ∧
    (emitBytes 3 (a.push m.toNat 11)).1.ahead ms = a.ahead (m :: ms) >>> (8 * ((a.cnt + 11) / 8)) ∧
    (emitBytes 3 (a.push m.toNat 11)).1.cnt = (a.cnt + 11) % 8 ∧
    (emitBytes 3 (a.push m.toNat 11)).1.Drained ∧
    (a.peak < 2 ^ 18 → (emitBytes 3 (a.push m.toNat 11)).1.peak < 2 ^ 18) := by
  obtain ⟨hcnt, hpend⟩ := ha
  have hpushed : (a.push m.toNat 11).cnt = a.cnt + 11 := rfl
  have hlt := Accumulator.push_pend_lt hpend m
  rw [emitBytes_eq 3 _ (by omega), hpushed, ← Accumulator.push_ahead hpend m ms]
  refine ⟨lowBytes_whole_bytes _ _ _, shiftRight_whole_bytes _ _ _, rfl, ⟨Nat.mod_lt _ (by decide), ?_⟩, fun hpeak => ?_⟩
  · have hbits : 8 * ((a.cnt + 11) / 8) + (a.cnt + 11) % 8 = a.cnt + 11 := Nat.div_add_mod _ _
    simp only [Nat.shiftRight_eq_div_pow]
    rwa [Nat.div_lt_iff_lt_mul (Nat.two_pow_pos _), ← Nat.pow_add, Nat.add_comm, hbits]
  · have hwidth : 2 ^ (a.cnt + 11) ≤ 2 ^ 18 := Nat.pow_le_pow_right (by decide) (by omega)
    exact max_lt hpeak (lt_of_lt_of_le hlt hwidth)

/-- The whole loop, from any drained accumulator: the bytes it emits, what it keeps, and the bound on what it holds. -/
theorem accumulateEnc_eq {a : Accumulator} (ha : a.Drained) (hpeak : a.peak < 2 ^ 18) (ms : List Channel) :
    (accumulateEnc a ms).2 = lowBytes ((a.cnt + 11 * ms.length) / 8) (a.ahead ms) ∧
    (accumulateEnc a ms).1.pend = a.ahead ms >>> (8 * ((a.cnt + 11 * ms.length) / 8)) ∧
    (accumulateEnc a ms).1.cnt = (a.cnt + 11 * ms.length) % 8 ∧
    (accumulateEnc a ms).1.peak < 2 ^ 18 := by
  induction ms generalizing a with
  | nil =>
    have hdiv : a.cnt / 8 = 0 := Nat.div_eq_of_lt ha.cnt_lt
    refine ⟨?_, ?_, ?_, hpeak⟩ <;>
      simp [accumulateEnc, Accumulator.ahead, laneStream, hdiv, lowBytes_zero, Nat.mod_eq_of_lt ha.cnt_lt]
  | cons m ms ih =>
    obtain ⟨hbytes, hahead, hcnt, hdrained, hheld⟩ := emitBytes_push ha m ms
    obtain ⟨hrest, hpend, hleft, hbound⟩ := ih hdrained (hheld hpeak)
    have hdiv : (a.cnt + 11 * (ms.length + 1)) / 8 = (a.cnt + 11) / 8 + ((a.cnt + 11) % 8 + 11 * ms.length) / 8 := by omega
    have hmod : (a.cnt + 11 * (ms.length + 1)) % 8 = ((a.cnt + 11) % 8 + 11 * ms.length) % 8 := by omega
    rw [hcnt] at hrest hpend hleft
    rw [hahead] at hrest hpend
    rw [List.length_cons, hdiv, hmod, lowBytes_add, Nat.mul_add, Nat.shiftRight_add]
    refine ⟨?_, hpend, hleft, hbound⟩
    rw [← hbytes, ← hrest]
    rfl

theorem Accumulator.empty_ahead (cs : ChannelSet) :
    Accumulator.empty.ahead (channelsOfSet cs).toList = streamOfChannels (channelsOfSet cs) := by
  rw [Accumulator.ahead, laneStream_channelsOfSet]
  simp [Accumulator.empty]

/-- Settles O32: `accumulateEnc_eq` from the empty accumulator, whose 176 bits ahead are 22 whole bytes of the stream. -/
theorem accumulatorEncAgrees : Obligations.AccumulatorEncAgrees := by
  intro cs
  obtain ⟨hbytes, hpend, hcnt, hpeak⟩ :=
    accumulateEnc_eq Accumulator.empty_drained (by decide) (channelsOfSet cs).toList
  have hbits : Accumulator.empty.cnt + 11 * (channelsOfSet cs).toList.length = 176 := by
    rw [Vector.length_toList]
    rfl
  rw [hbits, Accumulator.empty_ahead] at hbytes hpend
  rw [hbits] at hcnt
  refine ⟨hbytes.trans (imageOfSet_toList cs).symm, ?_, hcnt, hpeak⟩
  rw [hpend, Nat.shiftRight_eq_div_pow]
  exact Nat.div_eq_of_lt (streamOfChannels_lt _)

end Sys2Proof.Machine

/-! # Decoding: the extracted channels, the other forms of DEC, and DEC in the harness (41_decode.md; 42_codec_laws.md section 1)

The bits of an extracted channel are those of `unpackImage_getLsbD`; from them follow the unrolled formulas and that packing undoes
unpacking. DEC in the harness reads the image or takes its error, so what it leaves and what it depends on are facts about
`readImage`. The bit accumulator is followed as numbers. -/

namespace Sys2Proof.Machine

/-! ## The extracted channels (R102, R103) -/

theorem channelOfStream_toNat (a : Nat) (i : Fin 16) : (channelOfStream a i).toNat = a / 2 ^ (11 * i.val) % 2 ^ 11 := by
  have hmask : (a >>> (11 * i.val)) &&& 0x7FF = a >>> (11 * i.val) % 2 ^ 11 := Nat.and_two_pow_sub_one_eq_mod _ 11
  rw [channelOfStream, hmask, BitVec.toNat_ofNat, Nat.mod_mod, Nat.shiftRight_eq_div_pow]

/-- Settles O28: the channels as numbers from `channelOfStream_toNat`, and their bits from `unpackImage_getLsbD`. -/
theorem extractedChannelIsTheStreamCutInLanes : Obligations.ExtractedChannelIsTheStreamCutInLanes := by
  intro img
  refine ⟨fun i => ?_, fun i t => unpackImage_getLsbD img i.isLt t.isLt⟩
  rw [← channelOfStream_toNat, ← unpackImage_getElem img i.val i.isLt]
  rfl -- the statement writes `get i` for `[i]`

/-- Widening a channel keeps it below 2048. -/
theorem setOfImage_packedSlot_le (d : Slot) (img : WireImage) (i : Fin 16) :
    ((setOfImage d img)[packedSlot i]).toNat ≤ 2047 := by
  rw [setOfImage_packedSlot, BitVec.toNat_setWidth_of_le (by decide)]
  exact Nat.le_of_lt_succ (unpackImage img)[i].isLt

/-- Settles O29: a packed slot is the channel widened, so it has the channel's bound and no bit beyond the channel's width. -/
theorem decResultIsZeroExtended : Obligations.DecResultIsZeroExtended := by
  intro d img i
  refine ⟨setOfImage_packedSlot d img i, setOfImage_packedSlot_le d img i, fun t ht => ?_⟩
  rw [setOfImage_packedSlot, BitVec.getLsbD_setWidth, BitVec.getLsbD_of_ge _ t ht, Bool.and_false]

/-! ## Packing undoes unpacking (R122) -/

theorem maskSlot_setWidth (m : Channel) : maskSlot (m.setWidth 16) = m := by
  refine BitVec.eq_of_getLsbD_eq fun t ht => ?_
  have hslot : t < 16 := by omega
  rw [maskSlot_getLsbD, BitVec.getLsbD_setWidth, decide_eq_true ht, decide_eq_true hslot, Bool.true_and, Bool.true_and]

/-- ENC reads from a widened ChannelSet the channels it was widened from, whatever the default. -/
theorem channelsOfSet_widenChannels (d : Slot) (ch : Channels) : channelsOfSet (widenChannels d ch) = ch := by
  refine Vector.ext fun i hi => ?_
  rw [channelsOfSet_getElem, widenChannels_getElem, dif_pos hi, maskSlot_setWidth]

/-- A byte's bit at stream place `j` goes to lane `j div 11` and comes back from there. -/
theorem packChannels_unpackImage (b : WireImage) : packChannels (unpackImage b) = b := by
  refine Vector.ext fun k hk => BitVec.eq_of_getLsbD_eq fun n hn => ?_
  have hplace : 11 * ((8 * k + n) / 11) + (8 * k + n) % 11 = 8 * k + n := Nat.div_add_mod _ _
  have hbyte : (8 * k + n) / 8 = k := by omega
  have hbit : (8 * k + n) % 8 = n := by omega
  rw [packChannels_getLsbD _ hk hn, unpackImage_getLsbD b (by omega) (Nat.mod_lt _ (by decide))]
  simp only [hplace, hbyte, hbit]

theorem imageOfSet_setOfImage (d : Slot) (b : WireImage) : imageOfSet (setOfImage d b) = b := by
  rw [imageOfSet, setOfImage, channelsOfSet_widenChannels, packChannels_unpackImage]

/-- Settles O37: `imageOfSet_setOfImage` says it, for every value of the default. -/
theorem reverseRoundTripOfEveryImage : Obligations.ReverseRoundTripOfEveryImage := imageOfSet_setOfImage

/-- The packed slots of a DEC result determine the image, since ENC makes the image of them again. -/
theorem eq_of_setOfImage_packedSlot_eq {d : Slot} {a b : WireImage}
    (h : ∀ i : Fin 16, (setOfImage d a)[packedSlot i] = (setOfImage d b)[packedSlot i]) : a = b := by
  have hlow : sameLowBits (setOfImage d a) (setOfImage d b) := fun i => by rw [h i]
  rw [← imageOfSet_setOfImage d a, imageOfSet_congr hlow, imageOfSet_setOfImage]

/-! ## DEC in the harness (R101, R107, R108) -/

/-- From 22 on, DEC replaces the slots by those of the image, where the 22 bytes read. -/
theorem exec_dec_long {len : Len} {s : State} {b : WireImage} (hfit : len.toNat ≤ s.wb.len) (hl : 22 ≤ len.toNat)
    (hread : s.wb.readImage = .ok b) : exec (.dec len) s = .next (s.finishDec (setOfImage Config.defaultSlot b)) := by
  rw [exec_dec, execDec, if_pos ((Instr.fits_iff _ _).2 hfit), WireBuffer.decPort_long _ _ hl, hread]
  simp only [decOp_long _ _ hl]

/-- The 22 bytes read together where each of them reads. -/
theorem WireBuffer.exists_readImage {wb : WireBuffer} (hlen : 22 ≤ wb.len) (h : ∀ k, k < 22 → ∃ v, wb.readByte k = .ok v) :
    ∃ b, wb.readImage = .ok b := by
  rcases wb.readImage_cases hlen with himage | ⟨-, k, hk, hmissing⟩
  · exact himage
  · obtain ⟨v, hv⟩ := h k hk
    rw [hmissing] at hv
    cases hv

/-- Two buffers with the same bytes 0 to 21 give the same image. -/
theorem WireBuffer.readImage_unique {wb wb' : WireBuffer} {b b' : WireImage}
    (h : ∀ k, k < 22 → wb.readByte k = wb'.readByte k) (hb : wb.readImage = .ok b) (hb' : wb'.readImage = .ok b') : b = b' := by
  have hbytes : wb'.readImage = .ok b :=
    (wb'.readImage_ok_iff b).2 fun k => (h k.val k.isLt).symm.trans ((wb.readImage_ok_iff b).1 hb k)
  exact Except.ok.inj (hbytes.symm.trans hb')

/-- What a DEC that goes on leaves alone, at every length. -/
theorem exec_dec_next_frame {len : Len} {s t : State} (h : exec (.dec len) s = .next t) :
    t.wb = s.wb ∧ t.prog = s.prog ∧ t.idx = s.idx + 1 := by
  obtain ⟨-, ⟨-, rfl⟩ | ⟨-, b, -, rfl⟩⟩ := execDec_next h
  · exact ⟨State.takeError_wb s _, State.takeError_prog s _, State.takeError_idx s _⟩
  · exact ⟨State.finishDec_wb s _, State.finishDec_prog s _, State.finishDec_idx s _⟩

/-- What a DEC that goes on does to the slots, by the side of 22 its length is on. -/
theorem exec_dec_next_cs {len : Len} {s t : State} (h : exec (.dec len) s = .next t) :
    (len.toNat < 22 → t.cs = s.cs) ∧
    (22 ≤ len.toNat → ∃ b, s.wb.readImage = .ok b ∧ t.cs = setOfImage Config.defaultSlot b) := by
  obtain ⟨-, ⟨hl, rfl⟩ | ⟨hl, b, hread, rfl⟩⟩ := execDec_next h
  · exact ⟨fun _ => State.takeError_cs s _, fun hge => absurd hl (Nat.not_lt.2 hge)⟩
  · exact ⟨fun hlt => absurd hlt (Nat.not_lt.2 hl), fun _ => ⟨b, hread, State.finishDec_cs s _⟩⟩

/-- Settles O14: the frame of a DEC that goes on, and its slots on both sides of 22. -/
theorem decReplacesAllSlotsAndNoByte : Obligations.DecReplacesAllSlotsAndNoByte := by
  intro len s t h
  obtain ⟨hwb, hprog, -⟩ := exec_dec_next_frame h
  obtain ⟨hshort, hlong⟩ := exec_dec_next_cs h
  refine ⟨hwb, hprog, fun hl => ?_, hshort⟩
  obtain ⟨b, hread, hcs⟩ := hlong hl
  exact ⟨b, (s.wb.readImage_ok_iff b).1 hread, hcs⟩

/-- Settles O16: on each side of 22, the ports from `decOp` and the harness from `exec_dec_next_cs` and `exec_dec_long`. -/
theorem decGuardIsLengthBelow22 : Obligations.DecGuardIsLengthBelow22 := by
  intro len
  refine ⟨fun hl => ⟨fun d b => ⟨decOp_short d b hl, ?_, ?_⟩, fun s t h => ⟨(exec_dec_next_cs h).1 hl, ?_⟩⟩,
    fun hl => ⟨fun d b => ⟨?_, ?_⟩, fun s hfit hbytes => ?_⟩⟩
  · rw [decUnit, decOp_short d b hl]
  · rw [decUnit_status, statusOf_short (.dec len) hl, errorOf_dec, CodecError.status_bufferTooShort]
  · rw [exec_next_res h, statusOf_short (.dec len) hl, errorOf_dec, CodecError.status_bufferTooShort]
  · rw [decUnit, decOp_long d b hl]
  · rw [decUnit_status, statusOf_long (.dec len) hl]
  · obtain ⟨b, hread⟩ := WireBuffer.exists_readImage (le_trans hl hfit) hbytes
    exact ⟨_, exec_dec_long hfit hl hread, State.finishDec_res s _⟩

/-- Settles O43: no image fails, the packed slots determine the image, and in the harness the image determines the slots while the
length alone determines the status. -/
theorem decDependsOnTheImageAlone : Obligations.DecDependsOnTheImageAlone := by
  refine ⟨fun d img len hl => ⟨setOfImage d img, decOp_long d img hl, setOfImage_packedSlot_le d img⟩, fun d a b hne => ?_,
    fun len s s' t t' hbytes h h' => ⟨?_, fun hl => ?_⟩⟩
  · by_contra hsame
    push Not at hsame
    exact hne (eq_of_setOfImage_packedSlot_eq hsame)
  · rw [exec_next_res h, exec_next_res h', List.getLast?_concat, List.getLast?_concat]
  · obtain ⟨b, hread, hcs⟩ := (exec_dec_next_cs h).2 hl
    obtain ⟨b', hread', hcs'⟩ := (exec_dec_next_cs h').2 hl
    rw [hcs, hcs', WireBuffer.readImage_unique hbytes hread hread']

/-! ## The unrolled formulas (R104) -/

/-- Every formula of R104 at once: channel `i` starts at bit `11i mod 8` of byte `11i div 8` and goes on in the next byte and, where
that too leaves it short of 11 bits, in the one after. -/
def channelOfBytes (img : WireImage) (i : Fin 16) : Channel :=
  if h : 11 * i.val % 8 ≤ 5 then
    BitVec.ofNat 11 (((img[11 * i.val / 8].toNat >>> (11 * i.val % 8)) |||
      (img[11 * i.val / 8 + 1].toNat <<< (8 - 11 * i.val % 8))) &&& 0x7FF)
  else
    BitVec.ofNat 11 (((img[11 * i.val / 8].toNat >>> (11 * i.val % 8)) |||
      (img[11 * i.val / 8 + 1].toNat <<< (8 - 11 * i.val % 8)) |||
      (img[11 * i.val / 8 + 2].toNat <<< (16 - 11 * i.val % 8))) &&& 0x7FF)

/-- The 16 formulas are that one, written out for `i` from 0 to 15. -/
theorem unrolledChannels_getElem (img : WireImage) (i : Fin 16) : (unrolledChannels img)[i] = channelOfBytes img i := by
  fin_cases i <;> rfl

theorem ofNat_and_channelMask_getLsbD (a : Nat) {t : Nat} (ht : t < 11) :
    (BitVec.ofNat 11 (a &&& 0x7FF)).getLsbD t = a.testBit t := by
  have hzero := channelOfStream_getLsbD a 0 t
  simpa [channelOfStream, ht] using hzero

/-- The byte that holds place `p`, cut there: it has the stream's bits from `p` to its own end. -/
theorem cut_byte_testBit (img : WireImage) {p : Nat} (hp : p / 8 < 22) (t : Nat) :
    (img[p / 8].toNat >>> (p % 8)).testBit t = (decide ((p + t) / 8 = p / 8) && (streamOfImage img).testBit (p + t)) := by
  rw [Nat.testBit_shiftRight, BitVec.testBit_toNat, streamOfImage_testBit]
  by_cases hin : (p + t) / 8 = p / 8
  · have hmod : (p + t) % 8 = p % 8 + t := by omega
    simp [hin, hmod, hp]
  · rw [decide_eq_false hin, Bool.false_and, BitVec.getLsbD_of_ge _ _ (by omega)]

/-- The byte `n` after the one that holds place `p`, moved up to where it lies from `p` on: it has the stream's bits there and none
elsewhere. -/
theorem moved_byte_testBit (img : WireImage) {p n : Nat} (hn : 1 ≤ n) (hp : p / 8 + n < 22) (t : Nat) :
    (img[p / 8 + n].toNat <<< (8 * n - p % 8)).testBit t =
      (decide ((p + t) / 8 = p / 8 + n) && (streamOfImage img).testBit (p + t)) := by
  rw [Nat.testBit_shiftLeft, BitVec.testBit_toNat, streamOfImage_testBit]
  by_cases hin : (p + t) / 8 = p / 8 + n
  · have hstart : t ≥ 8 * n - p % 8 := by omega
    have hmod : (p + t) % 8 = t - (8 * n - p % 8) := by omega
    simp [hin, hmod, hstart, hp]
  · rw [decide_eq_false hin, Bool.false_and]
    rcases Nat.lt_or_ge t (8 * n - p % 8) with hbefore | hfrom
    · rw [decide_eq_false (Nat.not_le.2 hbefore), Bool.false_and]
    · rw [BitVec.getLsbD_of_ge _ _ (by omega), Bool.and_false]

/-- The bytes of a formula have the channel's bits of the stream between them: each of the 11 places lies in one of them. -/
theorem channelOfBytes_eq_unpackImage (img : WireImage) (i : Fin 16) : channelOfBytes img i = (unpackImage img)[i] := by
  refine BitVec.eq_of_getLsbD_eq fun t ht => ?_
  have hfirst := cut_byte_testBit img (p := 11 * i.val) (by omega) t
  have hsecond := moved_byte_testBit img (p := 11 * i.val) (n := 1) (by decide) (by omega) t
  rw [Fin.getElem_fin, unpackImage_getElem, channelOfStream_getLsbD, decide_eq_true ht, Bool.true_and, channelOfBytes]
  split
  next htwo =>
    have hplace : (11 * i.val + t) / 8 = 11 * i.val / 8 ∨ (11 * i.val + t) / 8 = 11 * i.val / 8 + 1 := by omega
    rw [ofNat_and_channelMask_getLsbD _ ht, Nat.testBit_or, hfirst, hsecond, ← Bool.and_or_distrib_right, ← Bool.decide_or,
      decide_eq_true hplace, Bool.true_and]
  next hthree =>
    have hthird := moved_byte_testBit img (p := 11 * i.val) (n := 2) (by decide) (by omega) t
    have hplace : ((11 * i.val + t) / 8 = 11 * i.val / 8 ∨ (11 * i.val + t) / 8 = 11 * i.val / 8 + 1) ∨
        (11 * i.val + t) / 8 = 11 * i.val / 8 + 2 := by omega
    rw [ofNat_and_channelMask_getLsbD _ ht, Nat.testBit_or, Nat.testBit_or, hfirst, hsecond, hthird,
      ← Bool.and_or_distrib_right, ← Bool.decide_or, ← Bool.and_or_distrib_right, ← Bool.decide_or, decide_eq_true hplace,
      Bool.true_and]

theorem unrolledChannels_eq_unpackImage (img : WireImage) : unrolledChannels img = unpackImage img :=
  Vector.ext fun i hi => (unrolledChannels_getElem img ⟨i, hi⟩).trans (channelOfBytes_eq_unpackImage img ⟨i, hi⟩)

/-- 8 lanes are 11 bytes, so the layout repeats after them. -/
theorem unpackImage_period {img img' : WireImage} (h : ∀ k : Fin 11, img'[k.val] = img[k.val + 11]) (i : Fin 8) :
    (unpackImage img)[i.val + 8] = (unpackImage img')[i.val] := by
  refine BitVec.eq_of_getLsbD_eq fun t ht => ?_
  have hdiv : (11 * (i.val + 8) + t) / 8 = (11 * i.val + t) / 8 + 11 := by omega
  have hmod : (11 * (i.val + 8) + t) % 8 = (11 * i.val + t) % 8 := by omega
  have hbyte := h ⟨(11 * i.val + t) / 8, by omega⟩
  rw [unpackImage_getLsbD img (by omega) ht, unpackImage_getLsbD img' (by omega) ht, hbyte]
  simp only [hdiv, hmod]

/-- Settles O33: the formulas are `channelOfBytes`, which is the extracted channel, and the layout has a period of 8 lanes. -/
theorem unrolledDecFormulasAgree : Obligations.UnrolledDecFormulasAgree :=
  ⟨unrolledChannels_eq_unpackImage, fun _ _ => unpackImage_period⟩

/-! ## The bit accumulator (R105)

The bytes still to come lie above the pending bits, and the two together are one number, the input that is left. Taking a byte
moves it from the one to the other and leaves the number; storing a channel cuts the number's low 11 bits off. -/

/-- Bytes in order as a number, the first lowest (R41). -/
def byteStream (bs : List Byte) : Nat := Nat.ofDigits (2 ^ 8) (bs.map BitVec.toNat)

theorem byteStream_cons (b : Byte) (bs : List Byte) : byteStream (b :: bs) = b.toNat + 2 ^ 8 * byteStream bs :=
  Nat.ofDigits_cons

theorem byteStream_toList (img : WireImage) : byteStream img.toList = streamOfImage img := by
  have hlen : (img.toList.map BitVec.toNat).length = 22 := by rw [List.length_map, Vector.length_toList]
  rw [byteStream, Nat.ofDigits_eq_sum_mapIdx, List.mapIdx_eq_ofFn, List.sum_ofFn, streamOfImage_eq_sum_mul]
  refine Fintype.sum_equiv (finCongr hlen) _ _ fun k => ?_
  simp [Nat.pow_mul]

/-- The low `n` channels of a number, lowest first. -/
def lowChannels (n v : Nat) : List Channel := List.ofFn fun i : Fin n => BitVec.ofNat 11 ((v >>> (11 * i.val)) &&& 0x7FF)

theorem unpackImage_toList (img : WireImage) : (unpackImage img).toList = lowChannels 16 (streamOfImage img) :=
  Vector.toList_ofFn

theorem lowChannels_succ (n v : Nat) :
    lowChannels (n + 1) v = BitVec.ofNat 11 (v &&& 0x7FF) :: lowChannels n (v >>> 11) := by
  have hshift : ∀ i, v >>> (11 * (i + 1)) = v >>> 11 >>> (11 * i) := fun i => by
    rw [← Nat.shiftRight_add, Nat.mul_succ, Nat.add_comm]
  simp only [lowChannels, List.ofFn_succ, Fin.val_succ, hshift]
  rfl

/-- The accumulator with the bytes to come holds an input of `n` bits, the number `v`, and so far has held 18 bits at most. -/
structure Accumulator.Holds (a : Accumulator) (bs : List Byte) (n v : Nat) : Prop where
  pend_lt : a.pend < 2 ^ a.cnt
  peak_lt : a.peak < 2 ^ 18
  bits : a.cnt + 8 * bs.length = n
  value : a.pend + 2 ^ a.cnt * byteStream bs = v

section
variable {a : Accumulator} {bs : List Byte} {n v : Nat}

theorem Accumulator.empty_holds (img : WireImage) : Accumulator.empty.Holds img.toList 176 (streamOfImage img) where
  pend_lt := by decide
  peak_lt := by decide
  bits := by rw [Vector.length_toList]; rfl
  value := by simp [Accumulator.empty, byteStream_toList]

/-- Taking a byte leaves the input as it is, and from fewer than 11 bits it makes 18 at most. -/
theorem Accumulator.Holds.push {b : Byte} (h : a.Holds (b :: bs) n v) (hcnt : a.cnt < 11) :
    (a.push b.toNat 8).Holds bs n v := by
  obtain ⟨hpend, hpeak, hbits, hvalue⟩ := h
  have hlt : a.pend + 2 ^ a.cnt * b.toNat < 2 ^ (a.cnt + 8) := by
    calc a.pend + 2 ^ a.cnt * b.toNat
        < 2 ^ a.cnt + 2 ^ a.cnt * b.toNat := Nat.add_lt_add_right hpend _
      _ = 2 ^ a.cnt * (b.toNat + 1) := by ring
      _ ≤ 2 ^ a.cnt * 2 ^ 8 := Nat.mul_le_mul_left _ b.isLt
      _ = 2 ^ (a.cnt + 8) := (Nat.pow_add 2 a.cnt 8).symm
  rw [← Accumulator.push_pend hpend b.toNat 8] at hlt
  refine ⟨hlt, ?_, ?_, ?_⟩
  · have hwidth : 2 ^ (a.cnt + 8) ≤ 2 ^ 18 := Nat.pow_le_pow_right (by decide) (by omega)
    exact max_lt hpeak (lt_of_lt_of_le hlt hwidth)
  · rw [List.length_cons] at hbits
    simp only [Accumulator.push]
    omega
  · rw [Accumulator.push_pend hpend, Accumulator.push, ← hvalue, byteStream_cons, Nat.pow_add]
    ring

/-- R105's inner loop ends with a whole channel pending, where the input has one and the turns suffice. -/
theorem takeBytes_holds {fuel : Nat} (h : a.Holds bs n v) (hn : 11 ≤ n) (hfuel : 11 ≤ a.cnt + 8 * fuel) :
    (takeBytes fuel a bs).1.Holds (takeBytes fuel a bs).2 n v ∧ 11 ≤ (takeBytes fuel a bs).1.cnt := by
  induction fuel generalizing a bs with
  | zero => exact ⟨h, hfuel⟩
  | succ fuel ih =>
    cases bs with
    | nil => exact ⟨h, le_of_le_of_eq hn h.bits.symm⟩
    | cons b bs =>
      rw [takeBytes]
      split
      next hlt => exact ih (h.push hlt) (by simp only [Accumulator.push]; omega)
      next hge => exact ⟨h, Nat.le_of_not_lt hge⟩

/-- The pending bits from place 11 on go on under the bytes to come. -/
theorem Accumulator.Holds.value_split (h : a.Holds bs n v) (hcnt : 11 ≤ a.cnt) :
    v = a.pend + 2 ^ 11 * (2 ^ (a.cnt - 11) * byteStream bs) := by
  rw [← Nat.mul_assoc, ← Nat.pow_add, Nat.add_sub_cancel' hcnt, h.value]

/-- The low 11 pending bits are the low 11 bits of the input. -/
theorem Accumulator.Holds.pend_and_mask (h : a.Holds bs n v) (hcnt : 11 ≤ a.cnt) : a.pend &&& 0x7FF = v &&& 0x7FF := by
  rw [show (0x7FF : Nat) = 2 ^ 11 - 1 from rfl, Nat.and_two_pow_sub_one_eq_mod, Nat.and_two_pow_sub_one_eq_mod,
    h.value_split hcnt, Nat.add_mul_mod_self_left]

/-- Dropping a stored channel cuts it off the input. -/
theorem Accumulator.Holds.drop (h : a.Holds bs (11 + n) v) (hcnt : 11 ≤ a.cnt) : (a.drop 11).Holds bs n (v >>> 11) where
  pend_lt := by
    have hsplit : 11 + (a.cnt - 11) = a.cnt := Nat.add_sub_cancel' hcnt
    simp only [Accumulator.drop, Nat.shiftRight_eq_div_pow]
    rw [Nat.div_lt_iff_lt_mul (Nat.two_pow_pos _), ← Nat.pow_add, Nat.add_comm, hsplit]
    exact h.pend_lt
  peak_lt := h.peak_lt
  bits := by
    have hbits := h.bits
    simp only [Accumulator.drop]
    omega
  value := by
    rw [h.value_split hcnt, Nat.shiftRight_eq_div_pow, Nat.add_mul_div_left _ _ (Nat.two_pow_pos _), Accumulator.drop,
      Nat.shiftRight_eq_div_pow]

/-- The whole loop on an input of `n` channels: it stores them, and no bit of the input is left. -/
theorem accumulateDec_eq (h : a.Holds bs (11 * n) v) :
    (accumulateDec n a bs).2 = lowChannels n v ∧
    ∃ u, (accumulateDec n a bs).1.1.Holds (accumulateDec n a bs).1.2 0 u := by
  induction n generalizing a bs v with
  | zero => exact ⟨rfl, v, h⟩
  | succ n ih =>
    have hbits : 11 * (n + 1) = 11 + 11 * n := by omega
    obtain ⟨htaken, hcnt⟩ := takeBytes_holds (fuel := 3) h (by omega) (by omega)
    rw [hbits] at htaken
    obtain ⟨hrest, hleft⟩ := ih (htaken.drop hcnt)
    refine ⟨?_, hleft⟩
    rw [lowChannels_succ, accumulateDec, htaken.pend_and_mask hcnt, ← hrest]

/-- With no bit of the input left, nothing is pending and no byte is to come. -/
theorem Accumulator.Holds.used_up (h : a.Holds bs 0 v) : bs = [] ∧ a.pend = 0 ∧ a.cnt = 0 := by
  obtain ⟨hpend, -, hbits, -⟩ := h
  obtain ⟨hcnt, hlen⟩ : a.cnt = 0 ∧ bs.length = 0 := by omega
  rw [hcnt] at hpend
  exact ⟨List.length_eq_zero_iff.1 hlen, Nat.lt_one_iff.1 hpend, hcnt⟩

end

/-- Settles O34: `accumulateDec_eq` from the empty accumulator, whose input is the 176 bits of the image. -/
theorem accumulatorDecAgrees : Obligations.AccumulatorDecAgrees := by
  intro img
  obtain ⟨hchannels, u, hleft⟩ := accumulateDec_eq (n := 16) (Accumulator.empty_holds img)
  obtain ⟨hbytes, hpend, hcnt⟩ := hleft.used_up
  exact ⟨hchannels.trans (unpackImage_toList img).symm, hbytes, hpend, hcnt, hleft.peak_lt⟩

end Sys2Proof.Machine

/-! # The laws of the codec (42_codec_laws.md sections 1 and 2)

Each of packing and unpacking undoes the other: a bit goes from its lane to the byte at the same stream place and back. The round
trip of a ChannelSet is then masking, and lanes are independent because each place of the stream is one bit of one slot. -/

namespace Sys2Proof.Machine

/-! ## Round trips (R120, R121) -/

/-- A channel's bit at stream place `j` goes to byte `j div 8` and comes back from there. -/
theorem unpackImage_packChannels (ch : Channels) : unpackImage (packChannels ch) = ch := by
  refine Vector.ext fun i hi => BitVec.eq_of_getLsbD_eq fun t ht => ?_
  have hplace : 8 * ((11 * i + t) / 8) + (11 * i + t) % 8 = 11 * i + t := Nat.div_add_mod _ _
  have hlane : (11 * i + t) / 11 = i := by omega
  have hbit : (11 * i + t) % 11 = t := by omega
  rw [unpackImage_getLsbD _ hi ht, packChannels_getLsbD ch (by omega) (Nat.mod_lt _ (by decide))]
  simp only [hplace, hlane, hbit]

/-- Lane `i` carries packed slot `i`, masked. -/
theorem channelsOfSet_lane (cs : ChannelSet) (i : Fin 16) : (channelsOfSet cs)[i] = maskSlot cs[packedSlot i] :=
  channelsOfSet_getElem cs i.val i.isLt

/-- A masked slot, stored again in 16 bits. -/
theorem setWidth_maskSlot (v : Slot) : (maskSlot v).setWidth 16 = v &&& 0x7FF#16 := by
  refine BitVec.eq_of_toNat_eq ?_
  rw [BitVec.toNat_setWidth_of_le (by decide), maskSlot_toNat]

theorem and_mask_of_le {v : Slot} (h : v.toNat ≤ 2047) : v &&& 0x7FF#16 = v := by
  refine BitVec.eq_of_toNat_eq ?_
  rw [and_mask_toNat, Nat.mod_eq_of_lt (Nat.lt_succ_of_le h)]

/-- Encoding then decoding masks each packed slot (R121). -/
theorem setOfImage_imageOfSet_packedSlot (d : Slot) (cs : ChannelSet) (i : Fin 16) :
    (setOfImage d (imageOfSet cs))[packedSlot i] = cs[packedSlot i] &&& 0x7FF#16 := by
  rw [setOfImage_packedSlot, imageOfSet, unpackImage_packChannels, channelsOfSet_lane, setWidth_maskSlot]

/-- Settles O36: `setOfImage_imageOfSet_packedSlot` says it. -/
theorem roundTripMasksEverySlot : Obligations.RoundTripMasksEverySlot := setOfImage_imageOfSet_packedSlot

/-- Settles O35: the round trip masks, and a slot of at most 2047 is its own mask. -/
theorem roundTripOfReducedSlots : Obligations.RoundTripOfReducedSlots := by
  intro d cs hreduced i
  rw [setOfImage_imageOfSet_packedSlot, and_mask_of_le (hreduced i)]

/-! ## The bijection (R123) -/

/-- Equal images have equal low bits, since the low bits are what decoding the image gives back. -/
theorem imageOfSet_eq_iff (cs cs' : ChannelSet) : imageOfSet cs = imageOfSet cs' ↔ sameLowBits cs cs' := by
  refine ⟨fun himage i => ?_, imageOfSet_congr⟩
  rw [← setOfImage_imageOfSet_packedSlot 0#16 cs, himage, setOfImage_imageOfSet_packedSlot]

/-- Settles O38: unpacking is the two-sided inverse of packing, and the rest follows from what the round trips give. -/
theorem encodingIsABijection : Obligations.EncodingIsABijection := by
  refine ⟨?_, fun d ch => ⟨channelsOfSet_widenChannels d ch, ?_⟩, unpackImage_packChannels, packChannels_unpackImage,
    fun d b b' => eq_of_setOfImage_packedSlot_eq, imageOfSet_eq_iff⟩
  · exact Function.bijective_iff_has_inverse.2 ⟨unpackImage, unpackImage_packChannels, packChannels_unpackImage⟩
  · rw [imageOfSet, channelsOfSet_widenChannels]

/-! ## Lanes (R124) -/

/-- Bit `t` of lane `i` of an image is bit `t` of slot `i`. -/
theorem imageBit_imageOfSet (cs : ChannelSet) {j : Fin 176} {i : Fin 16} {t : Fin 11} (hj : j.val = 11 * i.val + t.val) :
    imageBit (imageOfSet cs) j = cs[packedSlot i].getLsbD t.val := by
  have hplace : j = ⟨11 * i.val + t.val, by omega⟩ := Fin.ext hj
  rw [hplace, imageOfSet, imageBit_packChannels, channelBit_lane_place, channelsOfSet_lane, maskSlot_getLsbD,
    decide_eq_true t.isLt, Bool.true_and]

/-- Every stream place is one bit of one lane (R43). -/
theorem exists_lane_place (j : Fin 176) : ∃ (i : Fin 16) (t : Fin 11), j.val = 11 * i.val + t.val :=
  ⟨⟨j.val / 11, by omega⟩, ⟨j.val % 11, by omega⟩, (Nat.div_add_mod _ _).symm⟩

/-- ChannelSets that agree on every packed slot but `i` have the same image bit at every place outside lane `i`. -/
theorem imageBit_eq_outside_lane {cs cs' : ChannelSet} {i : Fin 16}
    (h : ∀ n : Fin 16, n ≠ i → cs[packedSlot n] = cs'[packedSlot n]) {j : Fin 176}
    (hj : j.val < 11 * i.val ∨ 11 * i.val + 11 ≤ j.val) :
    imageBit (imageOfSet cs) j = imageBit (imageOfSet cs') j := by
  obtain ⟨n, t, hplace⟩ := exists_lane_place j
  have hne : n ≠ i := by
    rintro rfl
    omega
  rw [imageBit_imageOfSet cs hplace, imageBit_imageOfSet cs' hplace, h n hne]

/-- Bytes that differ, differ in a bit. -/
theorem exists_imageBit_ne {img img' : WireImage} {k : Fin 22} (h : img[k] ≠ img'[k]) :
    ∃ (j : Fin 176) (b : Fin 8), j.val = 8 * k.val + b.val ∧ imageBit img j ≠ imageBit img' j := by
  by_contra hsame
  push Not at hsame
  refine h (BitVec.eq_of_getLsbD_eq fun b hb => ?_)
  have hbit := hsame ⟨8 * k.val + b, by omega⟩ ⟨b, hb⟩ rfl
  rwa [imageBit_byte_place img k ⟨b, hb⟩, imageBit_byte_place img' k ⟨b, hb⟩] at hbit

/-- The bytes that R45's table gives a lane are the `n` bytes from its first byte on. -/
theorem segmentsOfLane_bytes (i : Fin 16) :
    (segmentsOfLane i).map (fun s => s.byte.val) = List.range' (laneFirstByte i.val) (laneByteCount i.val) := by
  revert i
  decide

/-- A byte with a bit in a lane is one of the table's bytes of that lane. -/
theorem mem_segmentsOfLane_of_place {i : Fin 16} {t : Fin 11} {k : Fin 22} {b : Fin 8}
    (h : 8 * k.val + b.val = 11 * i.val + t.val) : k ∈ (segmentsOfLane i).map Segment.byte := by
  have hbyte : k.val ∈ List.range' (laneFirstByte i.val) (laneByteCount i.val) := by
    rw [List.mem_range'_1, laneByteCount, laneOffset, laneFirstByte]
    omega
  rw [← segmentsOfLane_bytes, List.mem_map] at hbyte
  obtain ⟨s, hs, hk⟩ := hbyte
  exact List.mem_map.2 ⟨s, hs, Fin.ext hk⟩

/-- Settles O39: a place is a bit of one slot, and a byte that differs has a differing bit, which can only be in lane `i`. -/
theorem lanesAreIndependent : Obligations.LanesAreIndependent := by
  intro cs cs' i hagree
  refine ⟨fun j => imageBit_eq_outside_lane hagree, fun j t hj => ?_, fun k hk => ?_⟩
  · rw [imageBit_imageOfSet cs hj, imageBit_imageOfSet cs' hj]
  · obtain ⟨j, b, hj, hne⟩ := exists_imageBit_ne hk
    have hinside : ¬(j.val < 11 * i.val ∨ 11 * i.val + 11 ≤ j.val) := fun hout =>
      hne (imageBit_eq_outside_lane hagree hout)
    exact mem_segmentsOfLane_of_place (t := ⟨j.val - 11 * i.val, by omega⟩) (b := b) (by simp only; omega)

/-! ## Success and purity (R125, R126) -/

/-- An operation succeeds exactly from 22 on. -/
theorem statusOf_eq_ite (i : Instr) : statusOf i = if 22 ≤ i.len.toNat then .ok else (errorOf i).status := by
  simp only [statusOf, lenOk_iff]

/-- No error has the status of a success. -/
theorem CodecError.status_ne_ok (e : CodecError) : e.status ≠ .ok := by cases e <;> decide

theorem statusOf_eq_ok_iff (i : Instr) : statusOf i = .ok ↔ 22 ≤ i.len.toNat := by
  rw [statusOf_eq_ite, ite_eq_left_iff]
  exact ⟨fun h => by_contra fun hl => CodecError.status_ne_ok _ (h hl), fun hl hn => absurd hl hn⟩

/-- Below 22, DEC takes its error, whatever the bytes hold. -/
theorem exec_dec_short {len : Len} {s : State} (hfit : len.toNat ≤ s.wb.len) (hl : len.toNat < 22) :
    exec (.dec len) s = .next (s.takeError .bufferTooShort) := by
  obtain ⟨img, hport⟩ := s.wb.decPort_short s.idx hl
  rw [exec_dec, execDec, if_pos ((Instr.fits_iff _ _).2 hfit), hport]
  simp only [decOp_short _ _ hl]

/-- An operation that fits a buffer with 22 readable bytes goes on, and appends its status. -/
theorem exec_completes {s : State} (hbytes : ∀ k, k < 22 → ∃ v, s.wb.readByte k = .ok v) (i : Instr)
    (hfit : i.len.toNat ≤ s.wb.len) : ∃ t, exec i s = .next t ∧ t.res = s.res ++ [statusOf i] := by
  suffices hnext : ∃ t, exec i s = .next t by
    obtain ⟨t, ht⟩ := hnext
    exact ⟨t, ht, exec_next_res ht⟩
  cases i with
  | enc len =>
    rcases Nat.lt_or_ge len.toNat 22 with hl | hl
    · exact ⟨_, exec_enc_short hfit hl⟩
    · obtain ⟨wb, -, hexec⟩ := exec_enc_long hfit hl
      exact ⟨_, hexec⟩
  | dec len =>
    rcases Nat.lt_or_ge len.toNat 22 with hl | hl
    · exact ⟨_, exec_dec_short hfit hl⟩
    · obtain ⟨b, hread⟩ := WireBuffer.exists_readImage (le_trans hl hfit) hbytes
      exact ⟨_, exec_dec_long hfit hl hread⟩

/-- Settles O20: the status appended is `statusOf`, and `exec_completes` at the lengths 21 and 22 gives the four completions. -/
theorem successIsExactlyLen22OrMore : Obligations.SuccessIsExactlyLen22OrMore := by
  refine ⟨fun i s t h => ?_, fun s hL hbytes => ?_⟩
  · rw [exec_next_res h, List.append_right_inj, List.append_right_inj, List.singleton_inj, List.singleton_inj]
    exact ⟨statusOf_eq_ite i, statusOf_eq_ok_iff i⟩
  · have h21 : (21#8 : Len).toNat ≤ s.wb.len := Nat.le_of_succ_le hL
    exact ⟨exec_completes hbytes (.enc 21#8) h21, exec_completes hbytes (.dec 21#8) h21,
      exec_completes hbytes (.enc 22#8) hL, exec_completes hbytes (.dec 22#8) hL⟩

/-- The guard looks at nothing but the side of 22 (R81, R101). -/
theorem lenOk_congr {len len' : Len} (h : 22 ≤ len.toNat ↔ 22 ≤ len'.toNat) : lenOk len = lenOk len' :=
  decide_eq_decide.2 h

/-- Settles O40: the guard answers alike on one side of 22, and the image is made of the low bits alone. -/
theorem unitsArePureFunctions : Obligations.UnitsArePureFunctions := by
  refine ⟨fun cs cs' len len' hlow hside => ?_, fun d img len len' hside => ?_⟩
  · rw [encUnit, encUnit, encOp, encOp, lenOk_congr hside, imageOfSet_congr hlow]
  · rw [decUnit, decUnit, decOp, decOp, lenOk_congr hside]

end Sys2Proof.Machine

/-! # Failed operations (60_exceptions.md)

What a failed operation does, once for both units: it takes the error of its unit. -/

namespace Sys2Proof.Machine

/-- The state after an error: only `RES` and `idx` differ (R144). -/
theorem State.takeError_eq (s : State) (e : CodecError) :
    s.takeError e = { s with res := s.res ++ [e.status], idx := s.idx + 1 } := rfl

/-- Below 22, an operation that fits the buffer takes the error of its own unit, whatever the operands hold (R81, R101). -/
theorem exec_short {i : Instr} {s : State} (hfit : i.len.toNat ≤ s.wb.len) (hl : i.len.toNat < 22) :
    exec i s = .next (s.takeError (errorOf i)) := by
  cases i with
  | enc len => exact exec_enc_short hfit hl
  | dec len => exact exec_dec_short hfit hl

/-- Below 22, ENC's ports offer no image and enable no write (R35, R81). -/
theorem encUnit_short (cs : ChannelSet) {len : Len} (hl : len.toNat < 22) :
    encUnit cs len = { wire := none, we := false, status := .tooSmall } := by
  simp only [encUnit, encOp_short cs hl, CodecError.status_bufferTooSmall]

/-- Below 22, DEC's ports offer no ChannelSet (R35, R101). -/
theorem decUnit_short (d : Slot) (b : WireImage) {len : Len} (hl : len.toNat < 22) :
    decUnit d b len = { ch := none, valid := false, status := .tooShort } := by
  simp only [decUnit, decOp_short d b hl, CodecError.status_bufferTooShort]

/-- Settles O18: the failed operation is `takeError` in the harness, and the ports of both units are empty. -/
theorem failedOperationLeavesOperandsAsTheyWere : Obligations.FailedOperationLeavesOperandsAsTheyWere := by
  intro i s hl hfit
  refine ⟨⟨s.takeError (errorOf i), exec_short hfit hl, s.takeError_eq (errorOf i)⟩, fun cs => ?_, fun d b => ?_⟩
  · rw [encUnit_short cs hl]
  · rw [decUnit_short d b hl]

end Sys2Proof.Machine

/-! # Decoding and encoding agree (30_encoding.md sections 1 and 3)

A word is its two fields side by side and an operation is its two fields, so reading and writing undo each other; a number of any
size is then an operation's exactly where it is that operation's word. -/

namespace Sys2Proof

/-- Reading a written word gives the operation back. -/
theorem decodeCommand_encode (i : Instr) : decodeCommand (encode i) = i := by
  obtain ⟨hlen, hop⟩ := Laws.EncodedFields.of_instr i
  cases i with
  | enc len => rw [decodeCommand_of_opField_zero hop, hlen, Instr.len_enc]
  | dec len => rw [decodeCommand_of_opField_one hop, hlen, Instr.len_dec]

/-- The two fields of R60 leave no bit of a word over. -/
theorem lenField_append_opField (w : CommandWord) : lenField w ++ opField w = w := by
  refine BitVec.eq_of_getLsbD_eq fun n hn => ?_
  rw [BitVec.getLsbD_append, opField, lenField, BitVec.getLsbD_extractLsb', BitVec.getLsbD_extractLsb', Nat.zero_add]
  split
  next hop => rw [decide_eq_true hop, Bool.true_and]
  next hlen =>
    have hfield : n - 1 < 8 := by omega
    have hplace : 1 + (n - 1) = n := by omega
    rw [decide_eq_true hfield, Bool.true_and, hplace]

/-- Writing what was read gives the word back. -/
theorem encode_decodeCommand (w : CommandWord) : encode (decodeCommand w) = w := by
  rcases BitVec.eq_zero_or_eq_one (opField w) with hop | hop
  · rw [decodeCommand_of_opField_zero hop, encode, Instr.len_enc, Instr.op_enc, ← hop, lenField_append_opField]
  · rw [decodeCommand_of_opField_one hop, encode, Instr.len_dec, Instr.op_dec, ← hop, lenField_append_opField]

/-- A number is an operation's exactly where it is that operation's command word (R60, R67). -/
theorem decode_eq_ok_iff (n : Nat) (i : Instr) : decode n = .ok i ↔ n = (encode i).toNat := by
  constructor
  · intro h
    rw [decode] at h
    split at h
    next hn =>
      rw [← Except.ok.inj h, encode_decodeCommand, BitVec.toNat_ofNat, Nat.mod_eq_of_lt hn]
    next => cases h
  · rintro rfl
    rw [decode, if_pos (encode i).isLt, BitVec.ofNat_toNat, BitVec.setWidth_eq, decodeCommand_encode]

theorem decodeTableWord_eq_some_iff (nbits w : Nat) (i : Instr) :
    decodeTableWord nbits w = some i ↔ w % 2 ^ nbits = (encode i).toNat := by
  rw [← decode_eq_ok_iff, decodeTableWord]
  cases decode (w % 2 ^ nbits) with
  | error e => simp
  | ok j => simp

/-- Settles O3: the two compositions, and the reading of a number of any size. -/
theorem decodeAndEncodeAgree : Obligations.DecodeAndEncodeAgree :=
  ⟨decodeCommand_encode, encode_decodeCommand, decodeTableWord_eq_some_iff⟩

/-- Settles O4: each of the ten numbers is the command word of its operation. -/
theorem workedEncodingsDecode : Obligations.WorkedEncodingsDecode := by
  simp only [Obligations.WorkedEncodingsDecode, decodeTableWord_eq_some_iff]
  decide

end Sys2Proof

/-! # Every operation and every step (10_state.md section 6; 60_exceptions.md)

What holds of both units is said once, as facts about `exec`: an operation that fits goes on, or is a DEC that misses a byte, and one
that goes on leaves the buffer or commits an image to it. A step is an operation, so each statement about steps is one of these and
the command that `fetch` finds. -/

namespace Sys2Proof.Machine

/-! ## What an operation can answer -/

/-- A length the buffer does not have is refused, whatever the unit (R30, R163). -/
theorem exec_of_beyond {i : Instr} {s : State} (h : s.wb.len < i.len.toNat) : exec i s = .refused .lenBeyondBuffer := by
  have hfit : ¬ i.fits s.wb.len = true := fun hf => absurd ((Instr.fits_iff _ _).1 hf) (Nat.not_le.2 h)
  cases i with
  | enc len => rw [exec_enc, execEnc, if_neg hfit]
  | dec len => rw [exec_dec, execDec, if_neg hfit]

/-- A DEC of 22 bytes or more stops where the bytes do not read. -/
theorem exec_dec_fault {len : Len} {s : State} {f : Fault} (hfit : len.toNat ≤ s.wb.len) (hl : 22 ≤ len.toNat)
    (hread : s.wb.readImage = .error f) : exec (.dec len) s = .fault f := by
  rw [exec_dec, execDec, if_pos ((Instr.fits_iff _ _).2 hfit), WireBuffer.decPort_long _ _ hl, hread]

/-- ENC goes on at every length its buffer has. -/
theorem exec_enc_completes {len : Len} {s : State} (hfit : len.toNat ≤ s.wb.len) : ∃ t, exec (.enc len) s = .next t := by
  rcases Nat.lt_or_ge len.toNat 22 with hl | hl
  · exact ⟨_, exec_enc_short hfit hl⟩
  · obtain ⟨wb, -, hexec⟩ := exec_enc_long hfit hl
    exact ⟨_, hexec⟩

/-- An operation that fits goes on, but for a DEC that needs a byte without a value. -/
theorem exec_of_fits {i : Instr} {s : State} (hfit : i.len.toNat ≤ s.wb.len) :
    (∃ t, exec i s = .next t) ∨
      exec i s = .fault .byteWithoutValue ∧ ∃ k < 22, s.wb.readByte k = .error .byteWithoutValue := by
  cases i with
  | enc len => exact .inl (exec_enc_completes hfit)
  | dec len =>
    rcases Nat.lt_or_ge len.toNat 22 with hl | hl
    · exact .inl ⟨_, exec_dec_short hfit hl⟩
    · rcases s.wb.readImage_cases (le_trans hl hfit) with ⟨b, hread⟩ | ⟨hread, hbyte⟩
      · exact .inl ⟨_, exec_dec_long hfit hl hread⟩
      · exact .inr ⟨exec_dec_fault hfit hl hread, hbyte⟩

/-- The one refusal of an operation. -/
theorem exec_refused_iff {i : Instr} {s : State} {r : Refusal} :
    exec i s = .refused r ↔ s.wb.len < i.len.toNat ∧ r = .lenBeyondBuffer := by
  constructor
  · intro h
    rcases Nat.lt_or_ge s.wb.len i.len.toNat with hbeyond | hfit
    · rw [exec_of_beyond hbeyond] at h
      exact ⟨hbeyond, (Host.Outcome.refused.inj h).symm⟩
    · rcases exec_of_fits hfit with ⟨t, ht⟩ | ⟨hf, -⟩
      · rw [ht] at h; cases h
      · rw [hf] at h; cases h
  · rintro ⟨hbeyond, rfl⟩
    exact exec_of_beyond hbeyond

/-- The one fault of an operation. -/
theorem eq_byteWithoutValue_of_exec_fault {i : Instr} {s : State} {f : Fault} (h : exec i s = .fault f) :
    f = .byteWithoutValue := by
  rcases Nat.lt_or_ge s.wb.len i.len.toNat with hbeyond | hfit
  · rw [exec_of_beyond hbeyond] at h; cases h
  · rcases exec_of_fits hfit with ⟨t, ht⟩ | ⟨hf, -⟩
    · rw [ht] at h; cases h
    · exact Host.Outcome.fault.inj (h.symm.trans hf)

theorem exec_next_fits {i : Instr} {s t : State} (h : exec i s = .next t) : i.len.toNat ≤ s.wb.len := by
  refine Nat.le_of_not_lt fun hbeyond => ?_
  rw [exec_of_beyond hbeyond] at h
  cases h

/-- An operation that goes on leaves the buffer as it was, or commits an image to it. -/
theorem exec_next_wb {i : Instr} {s t : State} (h : exec i s = .next t) :
    t.wb = s.wb ∨ ∃ img, s.wb.commitImage img = .ok t.wb := by
  cases i with
  | enc len =>
    obtain ⟨hshort, hlong⟩ := exec_enc_next_wb h
    rcases Nat.lt_or_ge len.toNat 22 with hl | hl
    · exact .inl (hshort hl)
    · exact .inr ⟨_, hlong hl⟩
  | dec len =>
    obtain ⟨hwb, -⟩ := exec_dec_next_frame h
    exact .inl hwb

/-- An operation that goes on keeps the program and `L` and moves `idx` on by one (R27, R30). -/
theorem exec_next_frame {i : Instr} {s t : State} (h : exec i s = .next t) :
    t.prog = s.prog ∧ t.idx = s.idx + 1 ∧ t.wb.len = s.wb.len := by
  cases i with
  | enc len =>
    obtain ⟨-, hprog, hidx, hlen⟩ := exec_enc_next_frame h
    exact ⟨hprog, hidx, hlen⟩
  | dec len =>
    obtain ⟨hwb, hprog, hidx⟩ := exec_dec_next_frame h
    exact ⟨hprog, hidx, congrArg WireBuffer.len hwb⟩

/-- Settles O9: `exec_of_beyond` says it. -/
theorem lenBeyondBufferIsRefused : Obligations.LenBeyondBufferIsRefused := fun _ _ => exec_of_beyond

/-- Settles O12: the image cannot be read where one of its bytes cannot. -/
theorem decStopsOnByteWithoutValue : Obligations.DecStopsOnByteWithoutValue := by
  intro len s k hl hfit hk hbyte
  rcases s.wb.readImage_cases (le_trans hl hfit) with ⟨b, hread⟩ | ⟨hread, -⟩
  · have hvalue := (s.wb.readImage_ok_iff b).1 hread ⟨k, hk⟩
    rw [hbyte] at hvalue
    cases hvalue
  · exact exec_dec_fault hfit hl hread

/-! ## What a step can answer -/

/-- A step at a command of a fitting program is that command's operation. -/
theorem step_of_command {s : State} {w : CommandWord} (hfit : programFits s.wb.len s.prog = true)
    (hw : s.prog[s.idx]? = some w) : step s = exec (decodeCommand w) s := by
  rw [step, (fetch_ok_iff s w).2 ⟨hfit, hw⟩]

theorem step_of_overlong {s : State} (h : programFits s.wb.len s.prog = false) : step s = .refused .lenBeyondBuffer := by
  rw [step, fetch, h]
  rfl

theorem step_of_past_end {s : State} (hfit : programFits s.wb.len s.prog = true) (hend : s.prog.length ≤ s.idx) :
    step s = .refused .runEnded := by
  rw [step, fetch, if_pos hfit, List.getElem?_eq_none hend]

/-- A command of a fitting program fits. -/
theorem fits_of_command {s : State} {w : CommandWord} (hfit : programFits s.wb.len s.prog = true)
    (hw : s.prog[s.idx]? = some w) : (decodeCommand w).len.toNat ≤ s.wb.len :=
  (programFits_iff _ _).1 hfit w (List.mem_of_getElem? hw)

/-- Settles O6: `step_of_command`, and what `exec` appends and leaves alone. -/
theorem stepRunsTheDecodedCommand : Obligations.StepRunsTheDecodedCommand := by
  intro s w hfit hw
  refine ⟨step_of_command hfit hw, fun t ht => ?_⟩
  rw [step_of_command hfit hw] at ht
  obtain ⟨hprog, hidx, hlen⟩ := exec_next_frame ht
  exact ⟨hidx, exec_next_res ht, hprog, hlen⟩

/-- Settles O7: the two refusals of `fetch`, and that a command of a fitting program fits, where `exec` refuses nothing. -/
theorem stepRefusesOnlyEndAndOverlongPrograms : Obligations.StepRefusesOnlyEndAndOverlongPrograms := by
  refine fun s => ⟨step_of_overlong, step_of_past_end, fun r hfit hidx hr => ?_⟩
  have hw := List.getElem?_eq_getElem hidx
  rw [step_of_command hfit hw] at hr
  obtain ⟨hbeyond, -⟩ := exec_refused_iff.1 hr
  exact absurd (fits_of_command hfit hw) (Nat.not_le.2 hbeyond)

/-! ## The invariants (R24, R30, R164) -/

/-- A launched buffer stays launched under every operation. -/
theorem exec_next_launched {i : Instr} {s t : State} (h : exec i s = .next t) (hs : s.wb.launched) : t.wb.launched := by
  rcases exec_next_wb h with hwb | ⟨img, hcommit⟩
  · rw [hwb]
    exact hs
  · obtain ⟨-, -, -, -, -, hkeys⟩ := WireBuffer.commitImage_ok hcommit
    exact hkeys hs

/-- Canonical memory stays canonical under every operation. -/
theorem exec_next_wf {i : Instr} {s t : State} (h : exec i s = .next t) (hs : s.wb.mem.wf = true) : t.wb.mem.wf = true := by
  rcases exec_next_wb h with hwb | ⟨img, hcommit⟩
  · rw [hwb]
    exact hs
  · obtain ⟨-, -, -, -, hwf, -⟩ := WireBuffer.commitImage_ok hcommit
    exact hwf hs

theorem step_keeps_good {s t : State} (hs : s.good) (h : step s = .next t) : t.good := by
  obtain ⟨hlaunched, hfit, hres, hidx⟩ := hs
  obtain ⟨w, -, hw, hexec⟩ := step_next h
  obtain ⟨hprog', hidx', hlen'⟩ := exec_next_frame hexec
  have hlt : s.idx < s.prog.length := (List.getElem?_eq_some_iff.1 hw).1
  refine ⟨exec_next_launched hexec hlaunched, ?_, ?_, ?_⟩
  · rwa [hprog', hlen']
  · rw [exec_next_res hexec, hidx', List.length_append, hres, List.length_singleton]
  · rw [hprog', hidx']
    exact hlt

/-- Settles O47: a step is an operation at a command of the list, and an operation keeps each part of `good`. -/
theorem everyStepKeepsGood : Obligations.EveryStepKeepsGood := fun _ _ => step_keeps_good

/-- Settles O49: a step is an operation, and an operation keeps the canonical form. -/
theorem everyStepKeepsMemoryCanonical : Obligations.EveryStepKeepsMemoryCanonical := by
  intro s t hs h
  obtain ⟨w, -, -, hexec⟩ := step_next h
  exact exec_next_wf hexec hs

/-- Settles O48: no byte, no command, no status. -/
theorem resetIsGood : Obligations.ResetIsGood := ⟨⟨rfl, rfl, rfl, le_rfl⟩, rfl, rfl⟩

/-! ## Good states (R147, R164) -/

/-- Every byte of a launched buffer has a value. -/
theorem WireBuffer.launched_readByte {wb : WireBuffer} (h : wb.launched) (a : Nat) :
    wb.readByte a ≠ .error .byteWithoutValue := by
  rw [Ne, WireBuffer.readByte_without_value_iff]
  rintro ⟨ha, hnone⟩
  have hsome : (wb.mem.read a).isSome = true := by
    rw [Memory.read_isSome_iff, h, List.mem_range]
    exact ha
  rw [hnone] at hsome
  cases hsome

/-- With every byte given a value, an operation that fits goes on. -/
theorem exec_of_launched {i : Instr} {s : State} (hs : s.wb.launched) (hfit : i.len.toNat ≤ s.wb.len) :
    ∃ t, exec i s = .next t := by
  rcases exec_of_fits hfit with hnext | ⟨-, k, -, hbyte⟩
  · exact hnext
  · exact absurd hbyte (s.wb.launched_readByte hs k)

/-- In a good state the next command runs, and completes. -/
theorem step_of_good {s : State} {w : CommandWord} (hs : s.good) (hw : s.prog[s.idx]? = some w) :
    ∃ t, step s = .next t ∧ exec (decodeCommand w) s = .next t := by
  obtain ⟨hlaunched, hfit, -, -⟩ := hs
  obtain ⟨t, ht⟩ := exec_of_launched hlaunched (fits_of_command hfit hw)
  exact ⟨t, (step_of_command hfit hw).trans ht, ht⟩

theorem State.ended_iff (s : State) : s.ended = true ↔ s.idx = s.prog.length := decide_eq_true_iff

theorem State.ended_false_iff (s : State) : s.ended = false ↔ s.idx ≠ s.prog.length := decide_eq_false_iff_not

theorem step_of_good_ended {s : State} (hs : s.good) (hend : s.ended = true) : step s = .refused .runEnded := by
  obtain ⟨-, hfit, -, -⟩ := hs
  exact step_of_past_end hfit (Nat.le_of_eq (s.ended_iff.1 hend).symm)

/-- Settles O50: at the end the fetch refuses, and before it a command stands at `idx`. -/
theorem goodStatesStopOnlyAtTheEnd : Obligations.GoodStatesStopOnlyAtTheEnd := by
  refine fun s hs => ⟨step_of_good_ended hs, fun hleft => ?_⟩
  have hidx : s.idx < s.prog.length := by
    obtain ⟨-, -, -, hle⟩ := hs
    exact Nat.lt_of_le_of_ne hle (s.ended_false_iff.1 hleft)
  obtain ⟨t, ht, -⟩ := step_of_good hs (List.getElem?_eq_getElem hidx)
  exact ⟨t, ht⟩

/-! ## Launches (R164) -/

/-- A buffer listed from its bytes, index `a` first, reads as those bytes. -/
theorem Memory.read_zip_range' (bytes : List Byte) (a b : Nat) :
    Memory.read ((List.range' a bytes.length).zip bytes) (a + b) = bytes[b]? := by
  induction bytes generalizing a b with
  | nil => rfl
  | cons v vs ih =>
    rw [List.length_cons, List.range'_succ, List.zip_cons_cons, Memory.read]
    cases b with
    | zero => rw [if_pos (Nat.add_zero a), List.getElem?_cons_zero]
    | succ b =>
      have hne : ¬ a + (b + 1) = a := by omega
      have hshift : a + (b + 1) = a + 1 + b := by omega
      rw [if_neg hne, hshift, ih, List.getElem?_cons_succ]

theorem WireBuffer.ofBytes_readByte (bytes : List Byte) (a : Nat) (h : a < bytes.length) :
    (WireBuffer.ofBytes bytes).readByte a = .ok bytes[a] := by
  have hread := Memory.read_zip_range' bytes 0 a
  rw [Nat.zero_add, ← List.range_eq_range', List.getElem?_eq_getElem h] at hread
  exact (WireBuffer.readByte_ok_iff _ _ _).2 ⟨h, hread⟩

/-- Settles O51: a program fits where each of its commands does, and the launched state is written out by its definition. -/
theorem launchIsGoodOrRefused : Obligations.LaunchIsGoodOrRefused := by
  refine fun cs bytes prog => ⟨fun hfits => ?_, fun w hw hbeyond => ?_⟩
  · have hfit : programFits bytes.length prog = true := (programFits_iff _ _).2 hfits
    refine ⟨_, if_pos hfit, ⟨WireBuffer.ofBytes_keys bytes, hfit, rfl, Nat.zero_le _⟩, rfl, rfl, rfl, rfl, rfl, ?_⟩
    exact WireBuffer.ofBytes_readByte bytes
  · refine if_neg fun hfit => ?_
    exact absurd ((programFits_iff _ _).1 hfit w hw) (Nat.not_le.2 hbeyond)

/-! ## A placed command (log entry 6) -/

/-- A memory made from a list of indexes reads at each of them what it was made with. -/
theorem Memory.read_map_of_mem {ks : List Nat} (f : Nat → Byte) {a : Nat} (ha : a ∈ ks) :
    Memory.read (ks.map fun k => (k, f k)) a = some (f a) := by
  induction ks with
  | nil => cases ha
  | cons k ks ih =>
    rw [List.map_cons, Memory.read]
    split
    next heq => rw [heq]
    next hne => exact ih ((List.mem_cons.1 ha).resolve_left hne)

/-- A buffer made longer keeps the bytes that have a value. -/
theorem WireBuffer.provide_readByte {wb : WireBuffer} {a : Nat} {v : Byte} (n : Nat) (h : wb.readByte a = .ok v) :
    (wb.provide n).readByte a = .ok v := by
  obtain ⟨ha, hv⟩ := (wb.readByte_ok_iff a v).1 h
  have hlen : a < (wb.provide n).len := Nat.lt_of_lt_of_le ha (Nat.le_max_left _ _)
  have hread := Memory.read_map_of_mem (fun k => (wb.mem.read k).getD 0x00#8) (List.mem_range.2 hlen)
  rw [hv, Option.getD_some] at hread
  exact (WireBuffer.readByte_ok_iff _ _ _).2 ⟨hlen, hread⟩

theorem le_programNeeds {prog : List CommandWord} {w : CommandWord} (h : w ∈ prog) :
    (decodeCommand w).len.toNat ≤ programNeeds prog := by
  induction prog with
  | nil => cases h
  | cons v vs ih =>
    rcases List.mem_cons.1 h with rfl | h
    · exact Nat.le_max_left _ _
    · exact le_trans (ih h) (Nat.le_max_right _ _)

theorem programFits_of_needs {prog : List CommandWord} {bufLen : Nat} (h : programNeeds prog ≤ bufLen) :
    programFits bufLen prog = true :=
  (programFits_iff _ _).2 fun _ hw => le_trans (le_programNeeds hw) h

theorem placeCommand_getElem? (w : CommandWord) (n : Nat) (prog : List CommandWord) : (placeCommand w n prog)[n]? = some w := by
  induction n generalizing prog with
  | zero => cases prog <;> rfl
  | succ n ih =>
    cases prog with
    | nil => exact ih []
    | cons v vs => exact ih vs

/-- What a placing does, where the number is a command word: the command and the bytes, and nothing else. -/
theorem State.withFetchWord_eq {s : State} {nbits w : Nat} {i : Instr} (h : decodeTableWord nbits w = some i) :
    s.withFetchWord nbits w =
      { s with
        prog := placeCommand (encode i) s.idx s.prog
        wb := s.wb.provide (programNeeds (placeCommand (encode i) s.idx s.prog)) } := by
  have hword := (decodeTableWord_eq_some_iff nbits w i).1 h
  rw [State.withFetchWord, hword, if_pos (encode i).isLt, BitVec.ofNat_toNat, BitVec.setWidth_eq]

section
variable (s : State) {nbits w : Nat} {i : Instr}

theorem State.withFetchWord_fits (h : decodeTableWord nbits w = some i) :
    programFits (s.withFetchWord nbits w).wb.len (s.withFetchWord nbits w).prog = true := by
  rw [State.withFetchWord_eq h]
  exact programFits_of_needs (Nat.le_max_right _ _)

theorem State.withFetchWord_command (h : decodeTableWord nbits w = some i) :
    (s.withFetchWord nbits w).prog[(s.withFetchWord nbits w).idx]? = some (encode i) := by
  rw [State.withFetchWord_eq h]
  exact placeCommand_getElem? _ _ _

theorem State.withFetchWord_launched (h : decodeTableWord nbits w = some i) : (s.withFetchWord nbits w).wb.launched := by
  rw [State.withFetchWord_eq h]
  exact s.wb.provide_keys _

end

/-- Settles O8: the placed program fits the buffer it is given, and every byte of that has a value. -/
theorem placedCommandRunsNextAndCompletes : Obligations.PlacedCommandRunsNextAndCompletes := by
  intro s nbits w i h
  have hfit := s.withFetchWord_fits h
  have hw := s.withFetchWord_command h
  have hstep := step_of_command hfit hw
  have hlen := fits_of_command hfit hw
  rw [decodeCommand_encode] at hstep hlen
  obtain ⟨t, ht⟩ := exec_of_launched (s.withFetchWord_launched h) hlen
  refine ⟨hstep, ⟨t, hstep.trans ht⟩, ?_⟩
  rw [State.withFetchWord_eq h]
  exact ⟨rfl, rfl, rfl, fun a v hv => WireBuffer.provide_readByte _ hv⟩

/-! ## Runs (R130, R164) -/

theorem steps_succ_of_step {s t : State} (h : step s = .next t) (k : Nat) : steps (k + 1) s = steps k t := by
  rw [steps, h]

/-- From a good state, as many steps as there are commands left are taken, one a command, with one status each. -/
theorem steps_of_good {s : State} (hs : s.good) {k : Nat} (hk : k ≤ s.prog.length - s.idx) :
    ∃ t, steps k s = .next t ∧ t.good ∧ t.prog = s.prog ∧ t.idx = s.idx + k ∧
      t.res = s.res ++ ((s.prog.drop s.idx).take k).map fun w => statusOf (decodeCommand w) := by
  induction k generalizing s with
  | zero => exact ⟨s, rfl, hs, rfl, rfl, (List.append_nil _).symm⟩
  | succ k ih =>
    have hidx : s.idx < s.prog.length := by omega
    obtain ⟨u, hstep, hexec⟩ := step_of_good hs (List.getElem?_eq_getElem hidx)
    obtain ⟨hprogU, hidxU, -⟩ := exec_next_frame hexec
    obtain ⟨t, hrun, ht, hprog, hidxT, hres⟩ := ih (step_keeps_good hs hstep) (by rw [hprogU, hidxU]; omega)
    refine ⟨t, (steps_succ_of_step hstep k).trans hrun, ht, hprog.trans hprogU, by omega, ?_⟩
    rw [hres, exec_next_res hexec, hprogU, hidxU, List.drop_eq_getElem_cons hidx, List.take_succ_cons, List.map_cons,
      List.append_assoc, List.singleton_append]

/-- A good state's run to the end. -/
theorem steps_to_end {s : State} (hs : s.good) :
    ∃ t, steps (s.prog.length - s.idx) s = .next t ∧ t.good ∧ t.ended = true ∧
      t.res = s.res ++ (s.prog.drop s.idx).map fun w => statusOf (decodeCommand w) := by
  obtain ⟨t, hrun, ht, hprog, hidx, hres⟩ := steps_of_good hs le_rfl
  obtain ⟨-, -, -, hle⟩ := hs
  refine ⟨t, hrun, ht, t.ended_iff.2 (by rw [hprog, hidx]; omega), ?_⟩
  rw [hres, ← List.length_drop, List.take_length]

/-- Settles O52: the run of `steps_to_end`, and the shorter ones of `steps_of_good`. -/
theorem runOfNCommandsEndsAfterNSteps : Obligations.RunOfNCommandsEndsAfterNSteps := by
  refine fun s hs => ⟨?_, fun n hn => ?_⟩
  · obtain ⟨t, hrun, ht, hend, hres⟩ := steps_to_end hs
    exact ⟨t, hrun, ht, hend, step_of_good_ended ht hend, hres⟩
  · obtain ⟨u, hrun, -, hprog, hidx, -⟩ := steps_of_good hs (Nat.le_of_lt hn)
    exact ⟨u, hrun, hidx, u.ended_false_iff.2 (by rw [hprog, hidx]; omega)⟩

/-- An operation below 22 that goes on takes its unit's error. -/
theorem exec_next_of_short {i : Instr} {s t : State} (h : exec i s = .next t) (hl : i.len.toNat < 22) :
    t = s.takeError (errorOf i) :=
  Host.Outcome.next.inj (h.symm.trans (exec_short (exec_next_fits h) hl))

/-- However many steps are taken, commands below 22 write no operand. -/
theorem steps_next_of_short {k : Nat} {s t : State} (h : steps k s = .next t)
    (hshort : ∀ w ∈ s.prog.drop s.idx, (decodeCommand w).len.toNat < 22) : t.cs = s.cs ∧ t.wb = s.wb := by
  induction k generalizing s with
  | zero =>
    cases Host.Outcome.next.inj h
    exact ⟨rfl, rfl⟩
  | succ k ih =>
    rw [steps] at h
    split at h
    next u hstep =>
      obtain ⟨w, -, hw, hexec⟩ := step_next hstep
      obtain ⟨hidx, hget⟩ := List.getElem?_eq_some_iff.1 hw
      rw [List.drop_eq_getElem_cons hidx, hget, List.forall_mem_cons] at hshort
      obtain ⟨hfirst, hrest⟩ := hshort
      obtain rfl := exec_next_of_short hexec hfirst
      obtain ⟨hcs, hwb⟩ := ih h hrest
      exact ⟨hcs, hwb⟩
    next => cases h
    next => cases h

/-- Settles O46: the run of `steps_to_end`, whose statuses are those of errors and whose steps write nothing. -/
theorem shortCommandsOnlyAppendErrors : Obligations.ShortCommandsOnlyAppendErrors := by
  intro s hs hshort
  obtain ⟨t, hrun, -, hend, hres⟩ := steps_to_end hs
  obtain ⟨hcs, hwb⟩ := steps_next_of_short hrun hshort
  refine ⟨t, hrun, hcs, hwb, hend, ?_⟩
  rw [hres, List.map_congr_left fun w hw => statusOf_short _ (hshort w hw)]

end Sys2Proof.Machine

/-! # Operations on their operands (40_encode.md, 41_decode.md, 42_codec_laws.md section 4; 60_exceptions.md section 4)

What DEC leaves, as numbers; what the ports offer; and operations one after another. The outcome of an operation is made of `CS` and
`WB` alone, so a failed operation, which leaves both, leaves no mark. -/

namespace Sys2Proof.Machine

/-! ## DEC, whole (R100, R106) -/

/-- Slots 16 and 17 of a DEC result (R106). -/
theorem setOfImage_default (d : Slot) (img : WireImage) : (setOfImage d img)[16] = d ∧ (setOfImage d img)[17] = d := by
  rw [setOfImage, widenChannels_getElem, widenChannels_getElem]
  exact ⟨dif_neg (by decide), dif_neg (by decide)⟩

/-- Settles O30: `setOfImage_default`, which in the harness is what a DEC of length 22 or more leaves. -/
theorem unpackedSlotsAreTheDefault : Obligations.UnpackedSlotsAreTheDefault := by
  refine ⟨setOfImage_default, fun len s t h hok => ?_⟩
  rw [exec_next_res h, List.append_right_inj, List.singleton_inj, statusOf_eq_ok_iff] at hok
  obtain ⟨b, -, hcs⟩ := (exec_dec_next_cs h).2 hok
  rw [hcs]
  exact setOfImage_default _ b

/-- A packed slot of a DEC result as the number R100 writes. -/
theorem setOfImage_packedSlot_eq_stream (d : Slot) (img : WireImage) (i : Fin 16) :
    (setOfImage d img)[packedSlot i] = BitVec.ofNat 16 ((streamOfImage img >>> (11 * i.val)) &&& 0x7FF) := by
  have hsmall : (streamOfImage img >>> (11 * i.val)) &&& 0x7FF < 2 ^ 11 := Nat.and_lt_two_pow _ (by decide)
  refine BitVec.eq_of_toNat_eq ?_
  rw [setOfImage_packedSlot, Fin.getElem_fin, unpackImage_getElem, channelOfStream, BitVec.toNat_setWidth_of_le (by decide),
    BitVec.toNat_ofNat, BitVec.toNat_ofNat, Nat.mod_eq_of_lt hsmall, Nat.mod_eq_of_lt (lt_trans hsmall (by decide))]

/-- The state after a successful DEC: only `CS`, `RES` and `idx` differ (R108). -/
theorem State.finishDec_eq (s : State) (cs : ChannelSet) :
    s.finishDec cs = { s with cs := cs, res := s.res ++ [Status.ok], idx := s.idx + 1 } := rfl

/-- The stream of an image that holds 1 in byte 0 and 0 in the 21 others, the example of R100. -/
theorem streamOfImage_of_first_byte_one {img : WireImage} (hone : img[(0 : Fin 22)] = 0x01#8)
    (hzero : ∀ k : Fin 22, k ≠ 0 → img[k] = 0x00#8) : streamOfImage img = 1 := by
  rw [streamOfImage, Finset.sum_eq_single 0]
  · rw [hone]; rfl
  · intro k _ hk
    rw [hzero k hk, BitVec.toNat_zero, Nat.zero_shiftLeft]
  · exact fun h => absurd (Finset.mem_univ _) h

/-- In the stream 1, every lane but the first is 0. -/
theorem one_shiftRight_lane {i : Fin 16} (hi : i ≠ 0) : 1 >>> (11 * i.val) = 0 := by
  have hpos : 0 < i.val := Nat.pos_of_ne_zero fun h => hi (Fin.ext h)
  rw [Nat.shiftRight_eq_div_pow, Nat.div_eq_of_lt (Nat.one_lt_two_pow (by omega))]

/-- Settles O11: the two sides of 22, the command word, and the example, whose stream is the number 1. -/
theorem decCompletesWithTheUnpackedSlots : Obligations.DecCompletesWithTheUnpackedSlots := by
  refine ⟨fun len s hfit => ⟨fun hl => ?_, fun hl b hbytes => ?_⟩, fun len => encode_toNat (.dec len),
    fun s hone hzero => ?_⟩
  · exact exec_dec_short hfit hl
  · refine ⟨setOfImage Config.defaultSlot b, ?_, setOfImage_packedSlot_eq_stream _ b, setOfImage_default _ b⟩
    rw [exec_dec_long hfit hl ((s.wb.readImage_ok_iff b).2 hbytes), State.finishDec_eq]
  · obtain ⟨hL, -⟩ := (s.wb.readByte_ok_iff 21 _).1 (hzero 21 (by decide) le_rfl)
    have hbytes : ∀ k, k < 22 → ∃ v, s.wb.readByte k = .ok v := fun k hk => by
      rcases Nat.eq_zero_or_pos k with rfl | hpos
      · exact ⟨_, hone⟩
      · exact ⟨_, hzero k hpos (by omega)⟩
    obtain ⟨b, hread⟩ := WireBuffer.exists_readImage hL hbytes
    have hb := (s.wb.readImage_ok_iff b).1 hread
    have hstream : streamOfImage b = 1 := by
      refine streamOfImage_of_first_byte_one (Except.ok.inj ((hb 0).symm.trans hone)) fun k hk => ?_
      have hpos : 1 ≤ k.val := Nat.one_le_iff_ne_zero.2 fun h => hk (Fin.ext h)
      exact Except.ok.inj ((hb k).symm.trans (hzero k.val hpos (by omega)))
    have hexec := exec_dec_long (len := 22#8) hL (by decide) hread
    refine ⟨_, hexec, ?_, State.finishDec_res s _, fun i hi => ?_, ?_⟩
    · rw [State.finishDec_cs]
      refine (setOfImage_packedSlot_eq_stream _ b 0).trans ?_
      rw [hstream]
      rfl
    · rw [State.finishDec_cs, setOfImage_packedSlot_eq_stream, hstream, one_shiftRight_lane hi, Nat.zero_and]
    · rw [State.finishDec_cs]
      exact setOfImage_default _ b

/-! ## The ports (R25, R26, R35) -/

/-- From 22 on, ENC's ports offer the image. -/
theorem encUnit_long (cs : ChannelSet) {len : Len} (hl : 22 ≤ len.toNat) :
    encUnit cs len = { wire := some (imageOfSet cs), we := true, status := .ok } := by
  rw [encUnit, encOp_long cs hl]

/-- From 22 on, DEC's ports offer the decoded ChannelSet. -/
theorem decUnit_long (d : Slot) (b : WireImage) {len : Len} (hl : 22 ≤ len.toNat) :
    decUnit d b len = { ch := some (setOfImage d b), valid := true, status := .ok } := by
  rw [decUnit, decOp_long d b hl]

/-- Settles O21: on each side of 22, the ports as written out and the harness as its frame lemmas say. -/
theorem harnessFollowsThePorts : Obligations.HarnessFollowsThePorts := by
  refine ⟨fun len s t h => ⟨?_, ?_⟩, fun len s t h => ?_⟩
  · rw [encUnit_status]
    exact exec_next_res h
  · rcases Nat.lt_or_ge len.toNat 22 with hl | hl
    · rw [encUnit_short s.cs hl]
      exact ⟨by simp, by simp, fun _ => (exec_enc_next_wb h).1 hl⟩
    · obtain ⟨himage, -⟩ := exec_enc_next_bytes h hl
      rw [encUnit_long s.cs hl]
      refine ⟨by simp [eq_comm], fun img himg => ?_, by simp⟩
      rw [← Option.some.inj himg]
      exact himage
  · have hres : ∀ b, t.res = s.res ++ [(decUnit Config.defaultSlot b len).status] := fun b => by
      rw [decUnit_status]
      exact exec_next_res h
    rcases Nat.lt_or_ge len.toNat 22 with hl | hl
    · obtain ⟨b, hport⟩ := s.wb.decPort_short s.idx hl
      refine ⟨b, hport, hres b, ?_⟩
      rw [decUnit_short _ b hl]
      exact ⟨by simp, by simp, fun _ => (exec_dec_next_cs h).1 hl⟩
    · obtain ⟨b, hread, hcs⟩ := (exec_dec_next_cs h).2 hl
      refine ⟨b, (s.wb.decPort_long s.idx hl).trans hread, hres b, ?_⟩
      rw [decUnit_long _ b hl, hcs]
      exact ⟨by simp [eq_comm], by simp, by simp⟩

/-! ## An outcome is made of the two operands (R126, R144, R146) -/

section
variable {j : Instr} {s t : State}

/-- An operation that goes on, goes on from every state with the same operands, and leaves the same operands. -/
theorem exec_next_congr {u : State} (hcs : t.cs = s.cs) (hwb : t.wb = s.wb) (h : exec j s = .next u) :
    ∃ v, exec j t = .next v ∧ v.cs = u.cs ∧ v.wb = u.wb := by
  have hfit : j.len.toNat ≤ t.wb.len := by
    rw [hwb]
    exact exec_next_fits h
  rcases Nat.lt_or_ge j.len.toNat 22 with hl | hl
  · obtain rfl := exec_next_of_short h hl
    exact ⟨_, exec_short hfit hl, hcs, hwb⟩
  · cases j with
    | enc len =>
      obtain ⟨hcsU, -⟩ := exec_enc_next_frame h
      have hcommit := (exec_enc_next_wb h).2 hl
      obtain ⟨wb, hcommit', hexec⟩ := exec_enc_long hfit hl
      rw [hcs, hwb, hcommit] at hcommit'
      exact ⟨_, hexec, hcs.trans hcsU.symm, (Except.ok.inj hcommit').symm⟩
    | dec len =>
      obtain ⟨hwbU, -⟩ := exec_dec_next_frame h
      obtain ⟨b, hread, hcsU⟩ := (exec_dec_next_cs h).2 hl
      rw [← hwb] at hread
      refine ⟨_, exec_dec_long hfit hl hread, ?_, ?_⟩
      · rw [State.finishDec_cs, hcsU]
      · rw [State.finishDec_wb, hwbU, hwb]

theorem exec_refused_congr {r : Refusal} (hwb : t.wb = s.wb) : exec j s = .refused r ↔ exec j t = .refused r := by
  rw [exec_refused_iff, exec_refused_iff, hwb]

/-- An operation that stops on a byte, stops on it from every state with the same operands. -/
theorem exec_fault_of_same_operands {f : Fault} (hcs : t.cs = s.cs) (hwb : t.wb = s.wb) (h : exec j s = .fault f) :
    exec j t = .fault f := by
  cases ht : exec j t with
  | next u =>
    obtain ⟨v, hv, -⟩ := exec_next_congr hcs.symm hwb.symm ht
    rw [h] at hv
    cases hv
  | fault g => rw [eq_byteWithoutValue_of_exec_fault h, eq_byteWithoutValue_of_exec_fault ht]
  | refused r =>
    rw [← exec_refused_congr hwb, h] at ht
    cases ht

theorem exec_fault_congr {f : Fault} (hcs : t.cs = s.cs) (hwb : t.wb = s.wb) : exec j s = .fault f ↔ exec j t = .fault f :=
  ⟨exec_fault_of_same_operands hcs hwb, exec_fault_of_same_operands hcs.symm hwb.symm⟩

end

/-- Settles O19: the failed operation leaves the operands, of which alone the next outcome is made. -/
theorem errorIsNotSticky : Obligations.ErrorIsNotSticky := by
  intro i j s t hl h
  have hfit := exec_next_fits h
  obtain rfl := exec_next_of_short h hl
  refine ⟨fun u hu => ?_, fun f => exec_fault_congr (s.takeError_cs _) (s.takeError_wb _),
    fun r => exec_refused_congr (s.takeError_wb _), ?_⟩
  · obtain ⟨v, hv, hcs, hwb⟩ := exec_next_congr (t := s.takeError (errorOf i)) (s.takeError_cs _) (s.takeError_wb _) hu
    obtain ⟨hprogU, -⟩ := exec_next_frame hu
    obtain ⟨hprogV, -⟩ := exec_next_frame hv
    exact ⟨v, hv, hcs, hwb, hprogV.trans hprogU.symm, exec_next_res hu, exec_next_res hv⟩
  · exact ⟨_, exec_short hfit hl, State.takeError_res _ _⟩

/-! ## Operations one after another (R48, R130) -/

/-- ENC done again commits the same image over itself. -/
theorem exec_enc_again {len : Len} {s t : State} (h : exec (.enc len) s = .next t) :
    ∃ u, exec (.enc len) t = .next u ∧ u.cs = t.cs ∧ ∀ a, u.wb.readByte a = t.wb.readByte a := by
  obtain ⟨hcs, -, -, hlen⟩ := exec_enc_next_frame h
  have hfit : len.toNat ≤ t.wb.len := by
    rw [hlen]
    exact exec_next_fits h
  rcases Nat.lt_or_ge len.toNat 22 with hl | hl
  · exact ⟨_, exec_enc_short hfit hl, rfl, fun a => rfl⟩
  · obtain ⟨wb, -, hexec⟩ := exec_enc_long hfit hl
    obtain ⟨himage, -⟩ := exec_enc_next_bytes h hl
    obtain ⟨himage', hbeyond'⟩ := exec_enc_next_bytes hexec hl
    refine ⟨_, hexec, rfl, fun a => ?_⟩
    rcases Nat.lt_or_ge a 22 with ha | ha
    · rw [himage' ⟨a, ha⟩, himage ⟨a, ha⟩, hcs]
    · exact hbeyond' a ha

/-- DEC done again reads the same bytes. -/
theorem exec_dec_again {len : Len} {s t : State} (h : exec (.dec len) s = .next t) :
    ∃ u, exec (.dec len) t = .next u ∧ u.cs = t.cs ∧ u.wb = t.wb := by
  obtain ⟨hwb, -⟩ := exec_dec_next_frame h
  have hfit : len.toNat ≤ t.wb.len := by
    rw [hwb]
    exact exec_next_fits h
  rcases Nat.lt_or_ge len.toNat 22 with hl | hl
  · exact ⟨_, exec_dec_short hfit hl, State.takeError_cs t _, State.takeError_wb t _⟩
  · obtain ⟨b, hread, hcs⟩ := (exec_dec_next_cs h).2 hl
    rw [← hwb] at hread
    refine ⟨_, exec_dec_long hfit hl hread, ?_, State.finishDec_wb t _⟩
    rw [State.finishDec_cs, hcs]

/-- Settles O44: `exec_enc_again` and `exec_dec_again`. -/
theorem operationsAreIdempotent : Obligations.OperationsAreIdempotent := by
  intro i s t h
  cases i with
  | enc len =>
    obtain ⟨u, hu, hcs, hbytes⟩ := exec_enc_again h
    exact ⟨u, hu, hcs, hbytes, exec_next_res h, exec_next_res hu⟩
  | dec len =>
    obtain ⟨u, hu, hcs, hwb⟩ := exec_dec_again h
    exact ⟨u, hu, hcs, fun a => by rw [hwb], exec_next_res h, exec_next_res hu⟩

/-- Two operations of length 22 or more, one after the other, report two successes. -/
theorem exec_exec_next_res {i j : Instr} {s t u : State} (hi : 22 ≤ i.len.toNat) (hj : 22 ≤ j.len.toNat)
    (ht : exec i s = .next t) (hu : exec j t = .next u) : u.res = s.res ++ [Status.ok, Status.ok] := by
  rw [exec_next_res hu, exec_next_res ht, statusOf_long i hi, statusOf_long j hj, List.append_assoc, List.singleton_append]

/-- Settles O45: DEC reads the image that ENC committed; and ENC commits the image that DEC read, over itself. -/
theorem encDecAndDecEncInTheHarness : Obligations.EncDecAndDecEncInTheHarness := by
  refine ⟨fun len1 len2 s hl1 hfit1 hl2 hfit2 => ?_, fun len1 len2 s b hl1 hfit1 hl2 hfit2 hbytes => ?_⟩
  · obtain ⟨wb, -, ht⟩ := exec_enc_long hfit1 hl1
    obtain ⟨-, -, -, hlen⟩ := exec_enc_next_frame ht
    obtain ⟨himage, hbeyond⟩ := exec_enc_next_bytes ht hl1
    have hu := exec_dec_long (hfit2.trans_eq hlen.symm) hl2 ((WireBuffer.readImage_ok_iff _ _).2 himage)
    refine ⟨_, _, ht, hu, ?_, ?_, fun i => ?_, ?_⟩
    · rw [State.finishDec_wb]
      exact himage
    · rw [State.finishDec_wb]
      exact hbeyond
    · rw [State.finishDec_cs, setOfImage_imageOfSet_packedSlot]
    · rw [exec_exec_next_res (i := .enc len1) (j := .dec len2) hl1 hl2 ht hu, State.finishDec_cs, ← and_assoc]
      exact ⟨setOfImage_default _ _, rfl⟩
  · have ht := exec_dec_long hfit1 hl1 ((s.wb.readImage_ok_iff b).2 hbytes)
    obtain ⟨hwb, -⟩ := exec_dec_next_frame ht
    obtain ⟨wb, -, hu⟩ := exec_enc_long (hfit2.trans_eq (congrArg WireBuffer.len hwb.symm)) hl2
    obtain ⟨himage, hbeyond⟩ := exec_enc_next_bytes hu hl2
    rw [State.finishDec_cs, imageOfSet_setOfImage] at himage
    refine ⟨_, _, ht, hu, fun a => ?_, ?_, exec_exec_next_res (i := .dec len1) (j := .enc len2) hl1 hl2 ht hu⟩
    · rcases Nat.lt_or_ge a 22 with ha | ha
      · rw [himage ⟨a, ha⟩, hbytes ⟨a, ha⟩]
      · rw [hbeyond a ha, hwb]
    · rw [State.finishEnc_cs, State.finishDec_cs]

/-! ## The layout (R43, R45, R49) -/

/-- A bit of a byte of the image is the slot bit at the same stream place (R43). -/
theorem imageOfSet_bit_eq_slot_bit (cs : ChannelSet) (k : Fin 22) (b : Fin 8) (i : Fin 16) (t : Fin 11)
    (h : 8 * k.val + b.val = 11 * i.val + t.val) : (imageOfSet cs)[k].getLsbD b.val = cs[packedSlot i].getLsbD t.val := by
  rw [← imageBit_byte_place (imageOfSet cs) k b]
  exact imageBit_imageOfSet cs h

/-- Settles O24: `imageOfSet_bit_eq_slot_bit`, and division with remainder by 8 and by 11. -/
theorem byteBitsAndLaneBitsMatch : Obligations.ByteBitsAndLaneBitsMatch := by
  refine ⟨imageOfSet_bit_eq_slot_bit, fun k b hk hb => ?_, fun i t hi ht => ?_⟩
  · simp only [laneOfByteBit, byteOfLaneBit, Nat.div_add_mod, Prod.mk.injEq]
    omega
  · simp only [laneOfByteBit, byteOfLaneBit, Nat.div_add_mod, Prod.mk.injEq]
    omega

/-- Every row of the table is within its byte and its channel, equally long in both, and starts in both at the same stream place. -/
theorem layoutTable_rows : ∀ g ∈ layoutTable,
    g.chLo ≤ g.chHi ∧ g.byteLo ≤ g.byteHi ∧ g.byteHi - g.byteLo = g.chHi - g.chLo ∧ g.chHi < 11 ∧ g.byteHi < 8 ∧ 8 * g.byte.val + g.byteLo = 11 * g.channel.val + g.chLo := by
  decide

/-- The rows of each lane: 11 bits in all, in as many bytes as R45 says. -/
theorem segmentsOfLane_counts : ∀ i : Fin 16, ((segmentsOfLane i).map fun g => g.chHi + 1 - g.chLo).sum = 11 ∧
    laneByteCount i.val = if i.val ∈ [2, 5, 10, 13] then 3 else 2 := by
  decide

/-- The rows of each byte: 8 bits in all, of as many lanes as R49 says. -/
theorem segmentsOfByte_counts : ∀ k : Fin 22, ((segmentsOfByte k).map fun g => g.byteHi + 1 - g.byteLo).sum = 8 ∧
    ((segmentsOfByte k).length = if k.val ∈ [0, 3, 7, 10, 11, 14, 18, 21] then 1 else 2) := by
  decide

/-- Settles O25: the rows of the table start at matching places, and the counts are read off the table. -/
theorem layoutTableHolds : Obligations.LayoutTableHolds := by
  refine ⟨fun g hg => ?_, fun cs g hg u hu => ?_, fun i => ⟨?_, segmentsOfLane_counts i⟩, segmentsOfByte_counts⟩
  · obtain ⟨hch, hbyte, hlength, -⟩ := layoutTable_rows g hg
    exact ⟨hch, hbyte, hlength⟩
  · obtain ⟨hch, hbyte, hlength, hchHi, hbyteHi, hstart⟩ := layoutTable_rows g hg
    exact imageOfSet_bit_eq_slot_bit cs g.byte ⟨g.byteLo + u, by omega⟩ g.channel ⟨g.chLo + u, by omega⟩
      (by simp only; omega)
  · rw [segmentsOfLane_bytes, List.range'_eq_map_range]

end Sys2Proof.Machine

/-! # The bench (10_state.md R36; 20_memory.md R52; 60_exceptions.md R143)

An activity writes at most the one operand it names in `writes`, and what it writes and reports is made of the operands it names in
`reads` and `writes`. Two activities that do not overlap therefore leave each other's operands alone, and commute. -/

namespace Sys2Proof.Machine

/-! ## One operand at a time -/

/-- The operand of a name, a ChannelSet or a buffer, where the bench has it. -/
def Bench.operand (w : Bench) : OperandName → Option (ChannelSet ⊕ WireBuffer)
  | .set n => w.sets[n]?.map .inl
  | .buf n => w.bufs[n]?.map .inr

/-- A bench is its operands. -/
theorem Bench.ext_operand {v w : Bench} (h : ∀ o, v.operand o = w.operand o) : v = w := by
  have hsets : v.sets = w.sets := List.ext_getElem? fun n => Option.map_injective Sum.inl_injective (h (.set n))
  have hbufs : v.bufs = w.bufs := List.ext_getElem? fun n => Option.map_injective Sum.inr_injective (h (.buf n))
  cases v
  cases w
  exact congrArg₂ Bench.mk hsets hbufs

theorem Bench.operand_set_eq_iff {v w : Bench} {n : Nat} : v.operand (.set n) = w.operand (.set n) ↔ v.sets[n]? = w.sets[n]? :=
  (Option.map_injective Sum.inl_injective).eq_iff

theorem Bench.operand_buf_eq_iff {v w : Bench} {n : Nat} : v.operand (.buf n) = w.operand (.buf n) ↔ v.bufs[n]? = w.bufs[n]? :=
  (Option.map_injective Sum.inr_injective).eq_iff

/-- The bench with one ChannelSet replaced. -/
def Bench.putSet (w : Bench) (m : Nat) (cs : ChannelSet) : Bench := { w with sets := w.sets.set m cs }

/-- The bench with one buffer replaced. -/
def Bench.putBuf (w : Bench) (k : Nat) (wb : WireBuffer) : Bench := { w with bufs := w.bufs.set k wb }

/-- Replacing a ChannelSet leaves every other operand alone. -/
theorem Bench.operand_putSet_other (w : Bench) {m : Nat} (cs : ChannelSet) {o : OperandName} (h : o ∉ [.set m]) :
    (w.putSet m cs).operand o = w.operand o := by
  cases o with
  | set n =>
    have hne : m ≠ n := fun heq => h (by rw [heq]; exact List.mem_singleton_self _)
    exact Bench.operand_set_eq_iff.2 (List.getElem?_set_ne hne)
  | buf n => rfl

/-- Replacing a buffer leaves every other operand alone. -/
theorem Bench.operand_putBuf_other (w : Bench) {k : Nat} (wb : WireBuffer) {o : OperandName} (h : o ∉ [.buf k]) :
    (w.putBuf k wb).operand o = w.operand o := by
  cases o with
  | set n => rfl
  | buf n =>
    have hne : k ≠ n := fun heq => h (by rw [heq]; exact List.mem_singleton_self _)
    exact Bench.operand_buf_eq_iff.2 (List.getElem?_set_ne hne)

/-- The operand replaced is the one put there, whatever bench that has it. -/
theorem Bench.operand_putSet_same {v w : Bench} {m : Nat} (cs : ChannelSet) (h : v.sets[m]? = w.sets[m]?) :
    ∀ o ∈ [OperandName.set m], (v.putSet m cs).operand o = (w.putSet m cs).operand o := by
  intro o ho
  rw [List.mem_singleton.1 ho, Bench.operand_set_eq_iff, Bench.putSet, Bench.putSet, List.getElem?_set_self',
    List.getElem?_set_self', h]

theorem Bench.operand_putBuf_same {v w : Bench} {k : Nat} (wb : WireBuffer) (h : v.bufs[k]? = w.bufs[k]?) :
    ∀ o ∈ [OperandName.buf k], (v.putBuf k wb).operand o = (w.putBuf k wb).operand o := by
  intro o ho
  rw [List.mem_singleton.1 ho, Bench.operand_buf_eq_iff, Bench.putBuf, Bench.putBuf, List.getElem?_set_self',
    List.getElem?_set_self', h]

/-! ## What one activity reads and writes -/

/-- The harness of one operation on the bench: its two operands and nothing else (R30). -/
def State.alone (cs : ChannelSet) (wb : WireBuffer) : State := { cs := cs, wb := wb, res := [], idx := 0, prog := [] }

@[simp] theorem State.alone_cs (cs : ChannelSet) (wb : WireBuffer) : (State.alone cs wb).cs = cs := rfl
@[simp] theorem State.alone_wb (cs : ChannelSet) (wb : WireBuffer) : (State.alone cs wb).wb = wb := rfl
@[simp] theorem State.alone_res (cs : ChannelSet) (wb : WireBuffer) : (State.alone cs wb).res = [] := rfl

theorem list_set_of_getElem? {α : Type} {l : List α} {n : Nat} {x : α} (h : l[n]? = some x) : l.set n x = l := by
  obtain ⟨hn, rfl⟩ := List.getElem?_eq_some_iff.1 h
  exact List.set_getElem_self hn

section
variable {len : Len} {m k : Nat} {w : Bench} {cs : ChannelSet} {wb : WireBuffer} {t : State}

/-- An ENC on the bench replaces its buffer. -/
theorem activate_enc (hcs : w.sets[m]? = some cs) (hwb : w.bufs[k]? = some wb)
    (h : exec (.enc len) (.alone cs wb) = .next t) :
    activate (.operation (.enc len) m k) w = .next (w.putBuf k t.wb, t.res) := by
  obtain ⟨hkept, -⟩ := exec_enc_next_frame h
  rw [activate_operation_of_exec hcs hwb h, hkept, Bench.putBuf]
  simp only [State.alone_cs, list_set_of_getElem? hcs]

/-- A DEC on the bench replaces its ChannelSet. -/
theorem activate_dec (hcs : w.sets[m]? = some cs) (hwb : w.bufs[k]? = some wb)
    (h : exec (.dec len) (.alone cs wb) = .next t) :
    activate (.operation (.dec len) m k) w = .next (w.putSet m t.cs, t.res) := by
  obtain ⟨hkept, -⟩ := exec_dec_next_frame h
  rw [activate_operation_of_exec hcs hwb h, hkept, Bench.putSet]
  simp only [State.alone_wb, list_set_of_getElem? hwb]

end

/-- What an activity that goes on does: it replaces the one operand it writes, by a value made of the operands it uses, so that a
bench that has the same ones is given the same value and the same statuses. -/
theorem activate_next {a : Activity} {w w' : Bench} {r : List Status} (h : activate a w = .next (w', r)) :
    (∃ m cs, a.writes = [.set m] ∧ w' = w.putSet m cs ∧
      ∀ v : Bench, (∀ o ∈ a.reads ++ a.writes, v.operand o = w.operand o) → activate a v = .next (v.putSet m cs, r)) ∨
    (∃ k wb, a.writes = [.buf k] ∧ w' = w.putBuf k wb ∧
      ∀ v : Bench, (∀ o ∈ a.reads ++ a.writes, v.operand o = w.operand o) → activate a v = .next (v.putBuf k wb, r)) := by
  cases a with
  | operation i m k =>
    obtain ⟨cs, wb, t, hcs, hwb, hexec, -, rfl⟩ := activate_operation_next h
    cases i with
    | enc len =>
      rw [activate_enc hcs hwb hexec] at h
      obtain ⟨rfl, -⟩ := Prod.mk.inj (Host.Outcome.next.inj h)
      refine .inr ⟨k, t.wb, rfl, rfl, fun v hv => ?_⟩
      have hset := Bench.operand_set_eq_iff.1 (hv (.set m) (by simp))
      have hbuf := Bench.operand_buf_eq_iff.1 (hv (.buf k) (by simp))
      exact activate_enc (hset.trans hcs) (hbuf.trans hwb) hexec
    | dec len =>
      rw [activate_dec hcs hwb hexec] at h
      obtain ⟨rfl, -⟩ := Prod.mk.inj (Host.Outcome.next.inj h)
      refine .inl ⟨m, t.cs, rfl, rfl, fun v hv => ?_⟩
      have hset := Bench.operand_set_eq_iff.1 (hv (.set m) (by simp))
      have hbuf := Bench.operand_buf_eq_iff.1 (hv (.buf k) (by simp))
      exact activate_dec (hset.trans hcs) (hbuf.trans hwb) hexec
  | hostSet m cs =>
    obtain ⟨hm, rfl, rfl⟩ := activate_hostSet_next h
    refine .inl ⟨m, cs, rfl, rfl, fun v hv => ?_⟩
    have hset := Bench.operand_set_eq_iff.1 (hv (.set m) (by simp))
    have hm' : m < v.sets.length := by
      rw [List.getElem?_eq_getElem hm] at hset
      exact (List.getElem?_eq_some_iff.1 hset).1
    rw [activate, if_pos hm', Bench.putSet]
  | hostByte k a x =>
    obtain ⟨wb, hwb, ha, rfl, rfl⟩ := activate_hostByte_next h
    refine .inr ⟨k, { wb with mem := wb.mem.write a x }, rfl, rfl, fun v hv => ?_⟩
    have hbuf := Bench.operand_buf_eq_iff.1 (hv (.buf k) (by simp))
    simp only [activate, hbuf.trans hwb, if_pos ha, Bench.putBuf]

/-- An activity leaves every operand it does not write. -/
theorem activate_frame {a : Activity} {w w' : Bench} {r : List Status} (h : activate a w = .next (w', r)) {o : OperandName}
    (ho : o ∉ a.writes) : w'.operand o = w.operand o := by
  rcases activate_next h with ⟨m, cs, hwrites, rfl, -⟩ | ⟨k, wb, hwrites, rfl, -⟩
  · exact w.operand_putSet_other cs (hwrites ▸ ho)
  · exact w.operand_putBuf_other wb (hwrites ▸ ho)

/-- An activity goes on from every bench that has the operands it uses, writes the same and reports the same. -/
theorem activate_congr {a : Activity} {v w w' : Bench} {r : List Status} (h : activate a w = .next (w', r))
    (hv : ∀ o ∈ a.reads ++ a.writes, v.operand o = w.operand o) :
    ∃ v', activate a v = .next (v', r) ∧ ∀ o ∈ a.writes, v'.operand o = w'.operand o := by
  rcases activate_next h with ⟨m, cs, hwrites, rfl, hgo⟩ | ⟨k, wb, hwrites, rfl, hgo⟩
  · refine ⟨_, hgo v hv, ?_⟩
    have hset := hv (.set m) (by rw [hwrites]; simp)
    rw [hwrites]
    exact Bench.operand_putSet_same cs (Bench.operand_set_eq_iff.1 hset)
  · refine ⟨_, hgo v hv, ?_⟩
    have hbuf := hv (.buf k) (by rw [hwrites]; simp)
    rw [hwrites]
    exact Bench.operand_putBuf_same wb (Bench.operand_buf_eq_iff.1 hbuf)

/-! ## Independence and overlap (R52) -/

/-- Without overlap, neither activity uses what the other writes. -/
theorem overlap_eq_false_iff (a b : Activity) : overlap a b = false ↔
    (∀ o ∈ a.writes, o ∉ b.reads ++ b.writes) ∧ ∀ o ∈ b.writes, o ∉ a.reads ++ a.writes := by
  simp only [overlap, Bool.or_eq_false_iff, List.any_eq_false, List.contains_iff_mem]

/-- An operand that one writes and the other uses makes the two overlap. -/
theorem overlap_of_shared {a b : Activity} (o : OperandName) (ha : o ∈ a.writes) (hb : o ∈ b.reads ++ b.writes) :
    overlap a b = true := by
  rw [← Bool.not_eq_false, overlap_eq_false_iff]
  rintro ⟨hab, -⟩
  exact hab o ha hb

theorem independent_iff_pairwise (as : List Activity) :
    independent as = true ↔ as.Pairwise fun a b => overlap a b = false := by
  induction as with
  | nil => simp [independent]
  | cons a as ih => simp [independent, ih]

theorem independent_pair {a b : Activity} (h : overlap a b = false) : independent [a, b] = true := by
  rw [independent_iff_pairwise]
  exact List.pairwise_pair.2 h

/-- Two activities that do not overlap and go on one after the other, go on together. -/
theorem together_pair {a b : Activity} {w w1 w2 : Bench} {ra rb : List Status} (h : overlap a b = false)
    (ha : activate a w = .next (w1, ra)) (hb : activate b w1 = .next (w2, rb)) :
    together [a, b] w = .next (w2, [ra, rb]) := by
  refine together_next_iff.2 ⟨independent_pair h, ?_⟩
  simp only [inOrder, ha, hb]

/-- Settles O53: each activity finds its operands as they were, so both orders put at every name what the activity that writes it
alone puts there. -/
theorem independentActivitiesCommute : Obligations.IndependentActivitiesCommute := by
  intro a b w wa wb ra rb hind ha hb
  obtain ⟨hab, hba⟩ := (overlap_eq_false_iff a b).1 hind
  have hab' : ∀ o ∈ b.reads ++ b.writes, o ∉ a.writes := fun o huse hwrite => hab o hwrite huse
  have hba' : ∀ o ∈ a.reads ++ a.writes, o ∉ b.writes := fun o huse hwrite => hba o hwrite huse
  obtain ⟨wab, hab2, hwab⟩ := activate_congr hb fun o ho => activate_frame ha (hab' o ho)
  obtain ⟨wba, hba2, hwba⟩ := activate_congr ha fun o ho => activate_frame hb (hba' o ho)
  have hsame : wab = wba := Bench.ext_operand fun o => by
    by_cases hoa : o ∈ a.writes
    · have hob : o ∉ b.writes := hba' o (List.mem_append_right _ hoa)
      rw [activate_frame hab2 hob, hwba o hoa]
    · rw [activate_frame hba2 hoa]
      by_cases hob : o ∈ b.writes
      · exact hwab o hob
      · rw [activate_frame hab2 hob, activate_frame ha hoa, activate_frame hb hob]
  refine ⟨wab, together_pair hind ha hab2, ?_⟩
  rw [hsame]
  exact together_pair ((overlap_comm b a).trans hind) hb hba2

/-- Settles O54: an overlapping pair is two members of the list that are not independent, and each pair that R52 names shares an
operand that one of the two writes. -/
theorem overlappingUseIsRefused : Obligations.OverlappingUseIsRefused := by
  refine ⟨fun as bs cs a b w h => ?_, fun len len' m n k l a v x => ?_⟩
  · refine if_neg fun hind => ?_
    rw [independent_iff_pairwise, List.pairwise_append] at hind
    obtain ⟨-, -, hpairs⟩ := hind
    have hfalse := hpairs a (by simp) b (by simp)
    rw [h] at hfalse
    cases hfalse
  · refine ⟨overlap_of_shared (.buf k) (by simp) (by simp), overlap_of_shared (.buf k) (by simp) (by simp),
      overlap_of_shared (.set m) (by simp) (by simp), ?_, ?_, ?_, fun hne => ?_⟩
    · exact (overlap_comm _ _).trans (overlap_of_shared (.set m) (by simp) (by simp))
    · exact (overlap_comm _ _).trans (overlap_of_shared (.set m) (by simp) (by simp))
    · exact (overlap_comm _ _).trans (overlap_of_shared (.buf k) (by simp) (by simp))
    · rw [overlap_eq_false_iff]
      simp [hne, hne.symm]

/-! ## Full duplex (R36, R143) -/

/-- DEC alone completes at every length its buffer has, where the bytes it needs read. -/
theorem exec_dec_completes {len : Len} {s : State} {b : WireImage} (hfit : len.toNat ≤ s.wb.len)
    (hbytes : 22 ≤ len.toNat → ∀ j : Fin 22, s.wb.readByte j.val = .ok b[j]) :
    ∃ t, exec (.dec len) s = .next t ∧ (22 ≤ len.toNat → t.cs = setOfImage Config.defaultSlot b) ∧
      (len.toNat < 22 → t.cs = s.cs) := by
  rcases Nat.lt_or_ge len.toNat 22 with hl | hl
  · exact ⟨_, exec_dec_short hfit hl, fun hge => absurd hl (Nat.not_lt.2 hge), fun _ => State.takeError_cs s _⟩
  · have hexec := exec_dec_long hfit hl ((s.wb.readImage_ok_iff b).2 (hbytes hl))
    exact ⟨_, hexec, fun _ => State.finishDec_cs s _, fun hlt => absurd hlt (Nat.not_lt.2 hl)⟩

/-- An operation alone reports its one status. -/
theorem exec_alone_res {i : Instr} {cs : ChannelSet} {wb : WireBuffer} {t : State} (h : exec i (.alone cs wb) = .next t) :
    t.res = [if 22 ≤ i.len.toNat then .ok else (errorOf i).status] := by
  rw [exec_next_res h, statusOf_eq_ite, State.alone_res, List.nil_append]

/-- Settles O55: each operation completes alone on its own operands, and the ENC leaves the DEC's in place. -/
theorem fullDuplexOnDifferentOperands : Obligations.FullDuplexOnDifferentOperands := by
  intro lenE lenD m k n l w csE csD wbE wbD b hmn hkl hcsE hwbE hcsD hwbD hfitE hfitD hbytes
  obtain ⟨t, ht⟩ := exec_enc_completes (s := .alone csE wbE) hfitE
  obtain ⟨u, hu, hlongD, hshortD⟩ := exec_dec_completes (s := .alone csD wbD) hfitD hbytes
  have hactE := activate_enc hcsE hwbE ht
  have hbufD : (w.putBuf k t.wb).bufs[l]? = some wbD := (List.getElem?_set_ne hkl).trans hwbD
  have hactD := activate_dec (w := w.putBuf k t.wb) hcsD hbufD hu
  have hind : overlap (.operation (.enc lenE) m k) (.operation (.dec lenD) n l) = false := by
    rw [overlap_eq_false_iff]
    simp [hkl, hmn.symm]
  obtain ⟨-, -, -, hlen⟩ := exec_enc_next_frame ht
  obtain ⟨hshortE, -⟩ := exec_enc_next_wb ht
  refine ⟨(w.putBuf k t.wb).putSet n u.cs, t.wb, ?_, rfl, hlen, fun hl => ?_, hshortE, fun hl => ?_, fun hl => ?_⟩
  · rw [together_pair hind hactE hactD, exec_alone_res ht, exec_alone_res hu]
    rfl
  · have hbytesE := exec_enc_next_bytes ht hl
    rwa [State.alone_cs, State.alone_wb] at hbytesE
  · rw [Bench.putSet, hlongD hl]
    rfl
  · rw [Bench.putSet, hshortD hl]
    exact list_set_of_getElem? hcsD

end Sys2Proof.Machine

/-! # The assembler's text (30_encoding.md section 4)

A line of a mnemonic, a space and a number is read as two words, whatever comment follows; what the number means is `parseLen`, which
reads a printed number as that number where it is below 256 and as nothing from there on. -/

namespace Sys2Proof.Machine

/-! ## Numbers -/

/-- The length of a number: itself below 256, nothing from there on (R68). -/
def lenOfNat (n : Nat) : Option Len := if n < 256 then some (BitVec.ofNat 8 n) else none

theorem lenOfNat_toNat (len : Len) : lenOfNat len.toNat = some len := by
  rw [lenOfNat, if_pos len.isLt, BitVec.ofNat_toNat, BitVec.setWidth_eq]

theorem lenOfNat_of_ge {n : Nat} (h : 256 ≤ n) : lenOfNat n = none := if_neg (Nat.not_lt.2 h)

/-- The number a text stands for, of whatever size (R68). -/
def numberOf : List Char → Option Nat
  | [] => none
  | ['0', 'x'] => none
  | '0' :: 'x' :: ds => digitsFrom 16 hexDigit 0 ds
  | ds => digitsFrom 10 decDigit 0 ds

theorem parseLen_eq_bind (cs : List Char) : parseLen cs = (numberOf cs).bind lenOfNat := by
  change (match numberOf cs with
    | some n => lenOfNat n
    | none => none) = _
  cases numberOf cs <;> rfl

/-- A text without an `x` is read as decimal digits. -/
theorem numberOf_decimal {ds : List Char} (h0 : ds ≠ []) (hx : 'x' ∉ ds) : numberOf ds = digitsFrom 10 decDigit 0 ds := by
  unfold numberOf
  split
  · exact absurd rfl h0
  · simp at hx
  · simp at hx
  · rfl

/-- What follows `0x` is read as hexadecimal digits. -/
theorem numberOf_hexadecimal {ds : List Char} (h0 : ds ≠ []) : numberOf ('0' :: 'x' :: ds) = digitsFrom 16 hexDigit 0 ds := by
  cases ds with
  | nil => exact absurd rfl h0
  | cons => rfl

/-- A digit character of base 16 or less is one of 16. -/
theorem digitChar_plain {d : Nat} (h : d < 16) : isBlank d.digitChar = false ∧ d.digitChar ≠ ';' ∧ d.digitChar ≠ 'x' := by
  interval_cases d <;> decide

/-- A printed number has no blank, no `;` and no `x` in it. -/
theorem toDigits_plain {base n : Nat} (hb : 1 < base) (hle : base ≤ 16) :
    ∀ c ∈ Nat.toDigits base n, isBlank c = false ∧ c ≠ ';' ∧ c ≠ 'x' := by
  intro c hc
  obtain ⟨d, hd, rfl⟩ := exists_of_mem_toDigits hb hc
  exact digitChar_plain (Nat.lt_of_lt_of_le hd hle)

/-- A number printed in decimal is read as that number. -/
theorem parseLen_toDigits_ten (n : Nat) : parseLen (Nat.toDigits 10 n) = lenOfNat n := by
  have hx : 'x' ∉ Nat.toDigits 10 n := fun h => by
    obtain ⟨-, -, hne⟩ := toDigits_plain (by decide) (by decide) _ h
    exact hne rfl
  rw [parseLen_eq_bind, numberOf_decimal Nat.toDigits_ne_nil hx,
    digitsFrom_toDigits (by decide) fun _ => decDigit_digitChar, Option.bind_some]

/-- A number printed in hexadecimal is read as that number. -/
theorem parseLen_toDigits_sixteen (n : Nat) : parseLen ('0' :: 'x' :: Nat.toDigits 16 n) = lenOfNat n := by
  rw [parseLen_eq_bind, numberOf_hexadecimal Nat.toDigits_ne_nil,
    digitsFrom_toDigits (by decide) fun _ => hexDigit_digitChar, Option.bind_some]

/-! ## Lines of two words -/

/-- The three letters of each mnemonic, and the operation of a length that they stand for (R68). -/
inductive IsMnemonic : List Char → (Len → Instr) → Prop
  | enc : IsMnemonic ['E', 'N', 'C'] .enc
  | dec : IsMnemonic ['D', 'E', 'C'] .dec

/-- Text that is one word, with no comment in it. -/
def IsWord (v : List Char) : Prop := v ≠ [] ∧ ∀ c ∈ v, isBlank c = false ∧ c ≠ ';'

theorem isWord_toDigits {base : Nat} (n : Nat) (hb : 1 < base) (hle : base ≤ 16) : IsWord (Nat.toDigits base n) := by
  refine ⟨Nat.toDigits_ne_nil, fun c hc => ?_⟩
  obtain ⟨hblank, hsemi, -⟩ := toDigits_plain hb hle c hc
  exact ⟨hblank, hsemi⟩

theorem isWord_hexadecimal (n : Nat) : IsWord ('0' :: 'x' :: Nat.toDigits 16 n) := by
  obtain ⟨-, hdigits⟩ := isWord_toDigits n (base := 16) (by decide) (by decide)
  refine ⟨List.cons_ne_nil _ _, ?_⟩
  rw [List.forall_mem_cons, List.forall_mem_cons]
  exact ⟨by decide, by decide, hdigits⟩

theorem isWord_mnemonic {mn : List Char} {op : Len → Instr} (h : IsMnemonic mn op) : IsWord mn := by
  cases h with
  | enc => simp [IsWord, isBlank]
  | dec => simp [IsWord, isBlank]

/-- A blank at the end of a line ends no further word. -/
theorem wordsFrom_append_blank (p cur : List Char) : wordsFrom (p ++ [' ']) cur = wordsFrom p cur := by
  induction p generalizing cur with
  | nil => cases cur <;> simp [wordsFrom, isBlank]
  | cons c p ih =>
    simp only [List.cons_append, wordsFrom]
    split
    · split
      · exact ih []
      · rw [ih []]
    · exact ih _

/-- What a line is read as once its two words are found. -/
theorem assembleLine_of_words {line mn num : List Char} {op : Len → Instr} (hmn : IsMnemonic mn op)
    (h : wordsFrom (stripComment line) [] = [mn, num]) :
    assembleLine line = (parseLen num).elim (.error .badLength) fun len => .ok (some (op len)) := by
  cases hmn with
  | enc => cases hlen : parseLen num <;> simp [assembleLine, h, hlen]
  | dec => cases hlen : parseLen num <;> simp [assembleLine, h, hlen]

section
variable {mn num : List Char} {op : Len → Instr}

/-- The words of a mnemonic, a space and a number. -/
theorem wordsFrom_operation (hmn : IsMnemonic mn op) (hnum : IsWord num) : wordsFrom (mn ++ ' ' :: num) [] = [mn, num] := by
  obtain ⟨hmn0, hmnc⟩ := isWord_mnemonic hmn
  obtain ⟨hnum0, hnumc⟩ := hnum
  exact wordsFrom_two (fun c hc => (hmnc c hc).1) (fun c hc => (hnumc c hc).1) hmn0 hnum0

theorem no_semicolon_of_operation (hmn : IsMnemonic mn op) (hnum : IsWord num) : ∀ c ∈ mn ++ ' ' :: num, c ≠ ';' := by
  obtain ⟨-, hmnc⟩ := isWord_mnemonic hmn
  obtain ⟨-, hnumc⟩ := hnum
  rw [List.forall_mem_append, List.forall_mem_cons]
  exact ⟨fun c hc => (hmnc c hc).2, by decide, fun c hc => (hnumc c hc).2⟩

theorem assembleLine_operation (hmn : IsMnemonic mn op) (hnum : IsWord num) :
    assembleLine (mn ++ ' ' :: num) = (parseLen num).elim (.error .badLength) fun len => .ok (some (op len)) := by
  refine assembleLine_of_words hmn ?_
  rw [stripComment_of_no_semicolon (no_semicolon_of_operation hmn hnum), wordsFrom_operation hmn hnum]

/-- A comment that follows at once changes nothing. -/
theorem assembleLine_operation_comment (hmn : IsMnemonic mn op) (hnum : IsWord num) (comment : List Char) :
    assembleLine (mn ++ ' ' :: num ++ ';' :: comment) =
      (parseLen num).elim (.error .badLength) fun len => .ok (some (op len)) := by
  refine assembleLine_of_words hmn ?_
  rw [stripComment_append (no_semicolon_of_operation hmn hnum), stripComment_comment, List.append_nil,
    wordsFrom_operation hmn hnum]

/-- A comment that follows after a space changes nothing. -/
theorem assembleLine_operation_space_comment (hmn : IsMnemonic mn op) (hnum : IsWord num) (comment : List Char) :
    assembleLine (mn ++ ' ' :: num ++ [' ', ';'] ++ comment) =
      (parseLen num).elim (.error .badLength) fun len => .ok (some (op len)) := by
  have hspace : ∀ c ∈ [' '], c ≠ ';' := by simp
  have hsplit : mn ++ ' ' :: num ++ [' ', ';'] ++ comment = mn ++ ' ' :: num ++ ([' '] ++ ';' :: comment) := by simp
  refine assembleLine_of_words hmn ?_
  rw [hsplit, stripComment_append (no_semicolon_of_operation hmn hnum), stripComment_append hspace, stripComment_comment,
    List.append_nil, wordsFrom_append_blank, wordsFrom_operation hmn hnum]

end

/-- The printed form of an operation is its mnemonic, a space and its length in decimal. -/
theorem printInstr_eq (i : Instr) :
    ∃ mn op, IsMnemonic mn op ∧ i = op i.len ∧ printInstr i = mn ++ ' ' :: Nat.toDigits 10 i.len.toNat := by
  cases i with
  | enc len => exact ⟨_, _, .enc, rfl, rfl⟩
  | dec len => exact ⟨_, _, .dec, rfl, rfl⟩

/-- Settles O5: the printed form is two words, the second of which is read as the length. -/
theorem assemblerReadsWhatItPrints : Obligations.AssemblerReadsWhatItPrints := by
  intro i comment
  obtain ⟨mn, op, hmn, hi, hprint⟩ := printInstr_eq i
  have hnum := isWord_toDigits i.len.toNat (base := 10) (by decide) (by decide)
  have hread : parseLen (Nat.toDigits 10 i.len.toNat) = some i.len := by rw [parseLen_toDigits_ten, lenOfNat_toNat]
  rw [hprint, assembleLine_operation hmn hnum, assembleLine_operation_space_comment hmn hnum, hread, Option.elim_some, ← hi]
  refine ⟨rfl, rfl, ?_⟩
  rw [assembleLine, stripComment_comment]
  rfl

/-- A length in hexadecimal is read as it, with or without a comment. -/
theorem assembleLine_hexadecimal {mn : List Char} {op : Len → Instr} (hmn : IsMnemonic mn op) (len : Len)
    (comment : List Char) :
    assembleLine (mn ++ ' ' :: '0' :: 'x' :: Nat.toDigits 16 len.toNat) = .ok (some (op len)) ∧
    assembleLine (mn ++ ' ' :: '0' :: 'x' :: Nat.toDigits 16 len.toNat ++ ';' :: comment) = .ok (some (op len)) := by
  have hnum := isWord_hexadecimal len.toNat
  rw [assembleLine_operation hmn hnum, assembleLine_operation_comment hmn hnum, parseLen_toDigits_sixteen, lenOfNat_toNat]
  exact ⟨rfl, rfl⟩

/-- A number above 255 is no length, in either form. -/
theorem assembleLine_above_255 {mn : List Char} {op : Len → Instr} (hmn : IsMnemonic mn op) {n : Nat} (h : 256 ≤ n) :
    assembleLine (mn ++ ' ' :: Nat.toDigits 10 n) = .error .badLength ∧
    assembleLine (mn ++ ' ' :: '0' :: 'x' :: Nat.toDigits 16 n) = .error .badLength := by
  have hnum := isWord_toDigits n (base := 10) (by decide) (by decide)
  rw [assembleLine_operation hmn hnum, assembleLine_operation hmn (isWord_hexadecimal n), parseLen_toDigits_ten,
    parseLen_toDigits_sixteen, lenOfNat_of_ge h]
  exact ⟨rfl, rfl⟩

/-- Settles O56: `assembleLine_hexadecimal` and `assembleLine_above_255`, each for both mnemonics. -/
theorem assemblerReadsHexadecimalAndNothingAbove255 : Obligations.AssemblerReadsHexadecimalAndNothingAbove255 := by
  refine ⟨fun len comment => ?_, fun n hn => ?_⟩
  · obtain ⟨henc, hencComment⟩ := assembleLine_hexadecimal .enc len comment
    obtain ⟨hdec, hdecComment⟩ := assembleLine_hexadecimal .dec len comment
    exact ⟨henc, hdec, hencComment, hdecComment⟩
  · obtain ⟨henc, hencHex⟩ := assembleLine_above_255 .enc hn
    obtain ⟨hdec, hdecHex⟩ := assembleLine_above_255 .dec hn
    refine ⟨?_, ?_, henc, hdec, hencHex, hdecHex⟩
    · rw [parseLen_toDigits_ten, lenOfNat_of_ge hn]
    · rw [parseLen_toDigits_sixteen, lenOfNat_of_ge hn]

end Sys2Proof.Machine
